-- ==== Sys2Proof/Word.lean ====
section
/-! DEFINITION. The data the SM4 engine core works on: bytes, 32-bit words, blocks and round-key
schedules (00_scope.md R4, R6, R7; 10_state.md R17). -/

namespace Sys2Proof

/-- R7: a byte, 8 bits numbered 7 down to 0. -/
abbrev Byte := BitVec 8

/-- R6: a 32-bit unsigned word, bits 31 down to 0. `BitVec 32` wraps modulo 2^32 (R177). -/
abbrev Word := BitVec 32

/-- GLOSSARY: a block is "a fixed 16-byte (128-bit) unit"; a type of its own, so that no buffer of
another length can reach the block core (R17, R36). -/
abbrev Block := Vector Byte 16

/-- R94: a round-key schedule is "an ordered sequence of exactly 32 32-bit words". -/
abbrev Schedule := Vector Word 32

end Sys2Proof
end

