-- ==== Sys2Proof/Machine/Bits.lean ====
section
/-! DEFINITION. Bytes, words and byte sequences: the one byte order (20_memory.md R32), rotation
(41_primitives.md R80), blocks within a buffer (R33) and the slice behind `MemRead` (R34). -/

namespace Sys2Proof.Machine

/-- R7, R32: `BE32(b0, b1, b2, b3)`; the first byte is the most significant. -/
def be32 (b0 b1 b2 b3 : Byte) : Word := b0 ++ b1 ++ b2 ++ b3

/-- R7: byte `k` of `BYTES32(w)`; byte 0 is `w[31:24]`, byte 3 is `w[7:0]`. -/
def wordByte (w : Word) (k : Fin 4) : Byte := w.extractLsb' (8 * (3 - k.val)) 8

/-- R80 `ROTL32(x, n)` for `0 <= n <= 31`. A count of 32 or more has no meaning and cannot be
written (U1, log 16). -/
def rotl32 (x : Word) (n : Fin 32) : Word := (x <<< n.val) ||| (x >>> (32 - n.val))

/-- R32: word `k` of a block or key, big-endian. -/
def blockWord (b : Block) (k : Fin 4) : Word :=
  be32 b[4 * k.val] b[4 * k.val + 1] b[4 * k.val + 2] b[4 * k.val + 3]

/-- R32, R100: `BYTES32(w0) ++ BYTES32(w1) ++ BYTES32(w2) ++ BYTES32(w3)`. -/
def blockOfWords (w0 w1 w2 w3 : Word) : Block :=
  #v[wordByte w0 0, wordByte w0 1, wordByte w0 2, wordByte w0 3,
     wordByte w1 0, wordByte w1 1, wordByte w1 2, wordByte w1 3,
     wordByte w2 0, wordByte w2 1, wordByte w2 2, wordByte w2 3,
     wordByte w3 0, wordByte w3 1, wordByte w3 2, wordByte w3 3]

/-- 45_modes.md notation `XOR16(a, b)`: byte by byte. -/
def xor16 (a b : Block) : Block :=
  ⟨(List.zipWith (· ^^^ ·) a.toList b.toList).toArray, by simp⟩

/-- R17: a byte sequence is a block, a key or an IV exactly when its length is 16. -/
def asBlock (b : List Byte) : Option Block :=
  if h : b.length = 16 then some ⟨b.toArray, by simpa using h⟩ else none

/-- R34: the `n` bytes at offsets `addr .. addr+n-1`, defined only when `addr + n <= len`. -/
def sliceBytes (b : List Byte) (addr n : Nat) : Option (List Byte) :=
  if addr + n ≤ b.length then some ((b.drop addr).take n) else none

/-- R33: block `j` of a byte sequence is `b[16j .. 16j+15]`. -/
def blockAt (b : List Byte) (j : Fin (b.length / 16)) : Block :=
  ⟨((b.drop (16 * j.val)).take 16).toArray, by
    have := j.isLt
    simp only [List.size_toArray, List.length_take, List.length_drop]; omega⟩

end Sys2Proof.Machine
end

