-- ==== Sys2Proof/Config.lean ====
section
/-! DEFINITION. The parameters of 00_scope.md: R4's fixed sizes, and R5's capacities, which the
spec leaves open. The constant tables G1 and G2 of 93_implementation_defined.md are in
Machine/Tables.lean. The spec leaves no result undefined, so there is no free value here. -/

namespace Sys2Proof.Config

/-- R4 `BLOCK_BYTES`, `KEY_BYTES`, `IV_BYTES`: bytes in a block, a key and an IV. -/
def blockBytes : Nat := 16

/-- R4 `ROUNDS`, `NRK`: rounds of the datapath and of the key schedule, one round key each. -/
def rounds : Nat := 32

/-- R5: `MAXLEN`, `KEYCAP`, `IVCAP`, the greatest `DLEN`, `KLEN`, `IVLEN` a descriptor can hold;
`none` is unbounded. State carries them, so every statement holds for every value (log 8). -/
structure Capacities where
  maxLen : Option Nat
  keyCap : Option Nat
  ivCap  : Option Nat
  deriving DecidableEq, Repr

/-- R5: a length fits a capacity. -/
def fitsCap (cap : Option Nat) (n : Nat) : Bool :=
  match cap with
  | none => true
  | some c => decide (n ≤ c)

/-- R5's constraint: `KEYCAP` and `IVCAP` are "at least 17, or unbounded". -/
def Capacities.legal (c : Capacities) : Bool :=
  fitsCap c.keyCap 17 && fitsCap c.ivCap 17

/-- R5, D17: "A model may take all three as unbounded"; the value after reset (log 8). -/
def Capacities.unbounded : Capacities := ⟨none, none, none⟩

/-- R5: `NINST`'s constraint, "at least 1". -/
def ninstLegal (ninst : Nat) : Bool := decide (1 ≤ ninst)

/-- R5: "Default 1". -/
def defaultNinst : Nat := 1

end Sys2Proof.Config
end

