-- ==== Sys2Proof/Machine/State.lean ====
section
/-! DEFINITION. The state of the SM4 engine core (10_state.md R10 to R24), the reasons a step stops,
and the state after reset. A field that can "hold no value" (R21) is an Option, or a vector of
them; that is the spec's own state of the register, not a missing reset value. -/

namespace Sys2Proof.Machine

/-- R16: `PHASE`. The fourth code of the 2-bit register is never taken. -/
inductive Phase where
  | idle
  | busy
  | done
  deriving DecidableEq, Repr

/-- R140: the seven error kinds, in the order of their codes. -/
inductive ErrorKind where
  | invalidKeyLength
  | invalidIVLength
  | invalidInputLength
  | invalidPadding
  | unsupportedMode
  | unsupportedPadding
  | illegalCommand
  deriving DecidableEq, Repr

/-- R56: `ERR`, `OK` or an error kind. Codes 8 to 15 are never produced. -/
inductive Err where
  | ok
  | error (e : ErrorKind)
  deriving DecidableEq, Repr

/-- R17: the descriptor, the operands of one command. A field is `none` when the host supplies none.
A sequence carries its length: `KLEN`, `IVLEN`, `DLEN`. -/
structure Descriptor where
  cmd   : Byte
  key   : Option (List Byte)
  iv    : Option (List Byte)
  data  : Option (List Byte)
  block : Option Block
  rk    : Option Schedule
  deriving DecidableEq, Repr

/-- R17: the descriptor fields that a command may read beside `CMD`. -/
inductive DescField where
  | key
  | iv
  | data
  | block
  | rk
  deriving DecidableEq, Repr

/-- R19: the response, the result of one command. -/
structure Response where
  err    : Option Err
  rkout  : Option Schedule
  blkout : Option Block
  out    : Option (List Byte)
  olen   : Option Nat
  deriving DecidableEq, Repr

/-- R21: a response in which no field holds a value. -/
def Response.noValue : Response := ⟨none, none, none, none, none⟩

/-- R12, R13, R14: the working registers, which live while a command runs. -/
structure Work where
  K      : Vector (Option Word) 36
  rk     : Vector (Option Word) 32
  X      : Vector (Option Word) 36
  PREV   : Option Block
  P      : Option (List Byte)
  padLen : Option Byte
  i      : Option Nat
  j      : Option Nat
  deriving DecidableEq, Repr

/-- R21, R24: no working register holds a value. -/
def Work.noValue : Work :=
  ⟨.replicate 36 none, .replicate 32 none, .replicate 36 none, none, none, none, none, none⟩

/-- The working registers by name. -/
inductive WorkReg where
  | K (n : Nat)
  | rk (n : Nat)
  | X (n : Nat)
  | PREV
  | P
  | padLen
  | i
  | j
  deriving DecidableEq, Repr

/-- R30: the six byte spaces. -/
inductive Space where
  | key
  | iv
  | data
  | block
  | out
  | blkout
  deriving DecidableEq, Repr

/-- R27: what a host read names. `bytes` is `MemRead` on a byte space (R30, R34). `working` names a
register the host can never read (R23, R159). -/
inductive ReadField where
  | status
  | err
  | olen
  | out
  | blkout
  | rkout
  | bytes (space : Space) (addr n : Nat)
  | working (r : WorkReg)
  deriving DecidableEq, Repr

/-- What a host read returns. -/
inductive ReadValue where
  | status (v : Byte)
  | err (v : BitVec 4)
  | olen (n : Nat)
  | bytes (b : List Byte)
  | block (b : Block)
  | words (v : Schedule)
  deriving DecidableEq, Repr

/-- R10: what the host can do. `wait` lets the engine act (R173); `reset` is R170. -/
inductive HostAction where
  | issue (d : Descriptor)
  | read (f : ReadField)
  | reset
  | wait
  deriving DecidableEq, Repr

/-- The model's own side of the host: the actions still to come, the next one first, and the value
its last read returned. Neither is engine state (log 2, log 14). -/
structure HostSide where
  pending : List HostAction
  got     : Option ReadValue
  deriving DecidableEq, Repr

/-- The whole state of one engine instance and its host. -/
structure State where
  rom   : Rom
  phase : Phase
  latch : Option Descriptor
  work  : Work
  resp  : Response
  caps  : Config.Capacities
  host  : HostSide
  deriving DecidableEq, Repr

/-- Why the machine stops with a fault. -/
inductive Fault where
  /-- Raised by `MemRead` and `MemWrite` when `addr + n` passes the end of the space (R34, R35).
  The engine never raises it; a host read of `bytes` can. Safe: the spec gives no value there. -/
  | outsideBuffer (space : Space) (addr n : Nat)
  deriving DecidableEq, Repr

/-- Why a step is refused: the spec gives the action no step and no meaning. -/
inductive Refusal where
  /-- Raised by an arm of `exec` that has no meaning. No arm of this model raises it. Safe. -/
  | notModelled (mnemonic : String)
  /-- Raised by `issue` in BUSY: "the model gives it no step" (R25, U3). Safe. -/
  | issueWhileBusy
  /-- Raised by `issue`, and by a meaning, when the descriptor lacks a field the command reads
  (R25, U14). Safe. -/
  | fieldAbsent (f : DescField)
  /-- Raised by `issue` of a descriptor that "cannot be formed" (R5, D17). Safe. -/
  | overCapacity (f : DescField)
  /-- Raised by a host read of a response field outside DONE (R27, R173). Safe. -/
  | readOutsideDone (f : ReadField)
  /-- Raised by a host read of a response field that holds no value (R21, U2). Safe. -/
  | readNoValue (f : ReadField)
  /-- Raised by a host read of what the host cannot read (R23, R30, R159). Safe. -/
  | notHostReadable (f : ReadField)
  /-- Raised by a unit reading a working register that holds no value (R21, U2). The engine never
  raises it. Safe. -/
  | registerNoValue (r : WorkReg)
  /-- Raised by a meaning outside BUSY: `complete` has the condition `PHASE = BUSY` (R26). Safe. -/
  | notBusy
  /-- Raised when BUSY holds no latched descriptor, which no `issue` leaves (R18). Safe. -/
  | latchNoValue
  deriving DecidableEq, Repr

/-- R24: the state after reset. The host side is the model's own and empty (log 2). -/
def State.reset : State where
  rom := romTables
  phase := .idle
  latch := none
  work := .noValue
  resp := { err := some .ok, rkout := none, blkout := none, out := none, olen := some 0 }
  caps := .unbounded
  host := { pending := [], got := none }

end Sys2Proof.Machine
end

