-- ==== Sys2Proof/Machine/Flags.lean ====
section
/-! DEFINITION. The codes of `ERR` and `PHASE` and the status register (30_encoding.md R56;
10_state.md R16, R20). `ERR` is the only condition output; there are no other flags. -/

namespace Sys2Proof.Machine

/-- R140: the code of an error kind. -/
def ErrorKind.code : ErrorKind → BitVec 4
  | .invalidKeyLength => 1
  | .invalidIVLength => 2
  | .invalidInputLength => 3
  | .invalidPadding => 4
  | .unsupportedMode => 5
  | .unsupportedPadding => 6
  | .illegalCommand => 7

/-- R56: the 4-bit `ERR`. -/
def Err.code : Err → BitVec 4
  | .ok => 0
  | .error e => e.code

/-- R16: the 2-bit `PHASE`. -/
def Phase.code : Phase → BitVec 2
  | .idle => 0
  | .busy => 1
  | .done => 2

/-- R20: `STATUS[3:0]` is `ERR` when `PHASE = DONE` and 0 otherwise. -/
def statusErr (s : State) : Option (BitVec 4) :=
  match s.phase with
  | .idle => some 0
  | .busy => some 0
  | .done => s.resp.err.map Err.code

/-- R20: `STATUS[7:6] = 0`, `STATUS[5:4] = PHASE`, `STATUS[3:0]` as above. It has a value at every
moment of a run; `none` is DONE without a response, which `complete` never leaves. -/
def State.status (s : State) : Option Byte :=
  (statusErr s).map fun e => 0#2 ++ s.phase.code ++ e

end Sys2Proof.Machine
end

