-- ==== Sys2Proof/Syntax.lean ====
section
/-! DEFINITION. The instructions of the SM4 engine core: one constructor for each of the 37 rows of
opcode_table.json (30_encoding.md R50 to R59). An operand is a field of the command word `CMD` that
the row leaves free: `ivp` is bit 7, `pad` bits 6:5, `mode` bits 4:3, `hi` bits 7:3. -/

namespace Sys2Proof

/-- One command word's meaning. `WellFormed.lean` says which operands each row admits. -/
inductive Instr where
  /-- `KEYSCHED`, 0x00, R93. -/
  | keysched
  /-- `ENCBLK`, 0x01, R101. -/
  | encblk
  /-- `DECBLK`, 0x02, R102. -/
  | decblk
  /-- `ENC.ECB.NONE`, 0x03 and 0x83, R125. -/
  | encEcbNone (ivp : Bool)
  /-- `ENC.ECB.PKCS7`, 0x23 and 0xA3, R125. -/
  | encEcbPkcs7 (ivp : Bool)
  /-- `ENC.ECB.ZERO`, 0x43 and 0xC3, R125. -/
  | encEcbZero (ivp : Bool)
  /-- `ENC.CBC.NONE`, 0x0B and 0x8B, R125. -/
  | encCbcNone (ivp : Bool)
  /-- `ENC.CBC.PKCS7`, 0x2B and 0xAB, R125. -/
  | encCbcPkcs7 (ivp : Bool)
  /-- `ENC.CBC.ZERO`, 0x4B and 0xCB, R125. -/
  | encCbcZero (ivp : Bool)
  /-- `DEC.ECB.NONE`, 0x04 and 0x84, R126. -/
  | decEcbNone (ivp : Bool)
  /-- `DEC.ECB.PKCS7`, 0x24 and 0xA4, R126. -/
  | decEcbPkcs7 (ivp : Bool)
  /-- `DEC.ECB.ZERO`, 0x44 and 0xC4, R126. -/
  | decEcbZero (ivp : Bool)
  /-- `DEC.CBC.NONE`, 0x0C and 0x8C, R126. -/
  | decCbcNone (ivp : Bool)
  /-- `DEC.CBC.PKCS7`, 0x2C and 0xAC, R126. -/
  | decCbcPkcs7 (ivp : Bool)
  /-- `DEC.CBC.ZERO`, 0x4C and 0xCC, R126. -/
  | decCbcZero (ivp : Bool)
  /-- `ENC.RSVMODE`: `MODE` is 2 or 3, R120 step 3. -/
  | encRsvMode (mode pad : BitVec 2) (ivp : Bool)
  /-- `DEC.RSVMODE`: `MODE` is 2 or 3, R120 step 3. -/
  | decRsvMode (mode pad : BitVec 2) (ivp : Bool)
  /-- `ENC.RSVPAD`: `PAD` is 3 and `MODE` is 0 or 1, R120 step 4. -/
  | encRsvPad (mode : BitVec 2) (ivp : Bool)
  /-- `DEC.RSVPAD`: `PAD` is 3 and `MODE` is 0 or 1, R120 step 4. -/
  | decRsvPad (mode : BitVec 2) (ivp : Bool)
  /-- `ILLEGAL.OP5`: reserved `OP`, R57. -/
  | illegalOp5 (hi : BitVec 5)
  /-- `ILLEGAL.OP6`: reserved `OP`, R57. -/
  | illegalOp6 (hi : BitVec 5)
  /-- `ILLEGAL.OP7`: reserved `OP`, R57. -/
  | illegalOp7 (hi : BitVec 5)
  /-- `ILLEGAL.KEYSCHED.BIT7`: `OP` 0, highest must-be-zero bit set is bit 7, R57. -/
  | illegalKeyschedBit7 (hi : BitVec 5)
  /-- `ILLEGAL.KEYSCHED.BIT6`: `OP` 0, highest must-be-zero bit set is bit 6, R57. -/
  | illegalKeyschedBit6 (hi : BitVec 5)
  /-- `ILLEGAL.KEYSCHED.BIT5`: `OP` 0, highest must-be-zero bit set is bit 5, R57. -/
  | illegalKeyschedBit5 (hi : BitVec 5)
  /-- `ILLEGAL.KEYSCHED.BIT4`: `OP` 0, highest must-be-zero bit set is bit 4, R57. -/
  | illegalKeyschedBit4 (hi : BitVec 5)
  /-- `ILLEGAL.KEYSCHED.BIT3`: `OP` 0, highest must-be-zero bit set is bit 3, R57. -/
  | illegalKeyschedBit3
  /-- `ILLEGAL.ENCBLK.BIT7`: `OP` 1, highest must-be-zero bit set is bit 7, R57. -/
  | illegalEncblkBit7 (hi : BitVec 5)
  /-- `ILLEGAL.ENCBLK.BIT6`: `OP` 1, highest must-be-zero bit set is bit 6, R57. -/
  | illegalEncblkBit6 (hi : BitVec 5)
  /-- `ILLEGAL.ENCBLK.BIT5`: `OP` 1, highest must-be-zero bit set is bit 5, R57. -/
  | illegalEncblkBit5 (hi : BitVec 5)
  /-- `ILLEGAL.ENCBLK.BIT4`: `OP` 1, highest must-be-zero bit set is bit 4, R57. -/
  | illegalEncblkBit4 (hi : BitVec 5)
  /-- `ILLEGAL.ENCBLK.BIT3`: `OP` 1, highest must-be-zero bit set is bit 3, R57. -/
  | illegalEncblkBit3
  /-- `ILLEGAL.DECBLK.BIT7`: `OP` 2, highest must-be-zero bit set is bit 7, R57. -/
  | illegalDecblkBit7 (hi : BitVec 5)
  /-- `ILLEGAL.DECBLK.BIT6`: `OP` 2, highest must-be-zero bit set is bit 6, R57. -/
  | illegalDecblkBit6 (hi : BitVec 5)
  /-- `ILLEGAL.DECBLK.BIT5`: `OP` 2, highest must-be-zero bit set is bit 5, R57. -/
  | illegalDecblkBit5 (hi : BitVec 5)
  /-- `ILLEGAL.DECBLK.BIT4`: `OP` 2, highest must-be-zero bit set is bit 4, R57. -/
  | illegalDecblkBit4 (hi : BitVec 5)
  /-- `ILLEGAL.DECBLK.BIT3`: `OP` 2, highest must-be-zero bit set is bit 3, R57. -/
  | illegalDecblkBit3
  deriving DecidableEq, Repr

end Sys2Proof
end

