-- ==== Sys2Proof/WellFormed.lean ====
section
/-! DEFINITION. Which operands a row of opcode_table.json admits: the row's own mask and match over
the bits its constructor carries (30_encoding.md R52, R53, R57). -/

namespace Sys2Proof

/-- The operands lie in the row the constructor stands for. -/
def Instr.wf : Instr → Bool
  | .encRsvMode mode _ _ | .decRsvMode mode _ _ => mode == 2#2 || mode == 3#2
  | .encRsvPad mode _ | .decRsvPad mode _ => mode == 0#2 || mode == 1#2
  | .illegalKeyschedBit7 hi | .illegalEncblkBit7 hi | .illegalDecblkBit7 hi =>
      hi.extractLsb' 4 1 == 1#1
  | .illegalKeyschedBit6 hi | .illegalEncblkBit6 hi | .illegalDecblkBit6 hi =>
      hi.extractLsb' 3 2 == 1#2
  | .illegalKeyschedBit5 hi | .illegalEncblkBit5 hi | .illegalDecblkBit5 hi =>
      hi.extractLsb' 2 3 == 1#3
  | .illegalKeyschedBit4 hi | .illegalEncblkBit4 hi | .illegalDecblkBit4 hi =>
      hi.extractLsb' 1 4 == 1#4
  | .keysched | .encblk | .decblk
  | .encEcbNone _ | .encEcbPkcs7 _ | .encEcbZero _
  | .encCbcNone _ | .encCbcPkcs7 _ | .encCbcZero _
  | .decEcbNone _ | .decEcbPkcs7 _ | .decEcbZero _
  | .decCbcNone _ | .decCbcPkcs7 _ | .decCbcZero _
  | .illegalOp5 _ | .illegalOp6 _ | .illegalOp7 _
  | .illegalKeyschedBit3 | .illegalEncblkBit3 | .illegalDecblkBit3 => true

end Sys2Proof
end

