-- ==== Sys2Proof/Decode.lean ====
section
/-! DEFINITION. The command word `CMD` to an instruction (30_encoding.md R50, R58, total on all 256
words), the decoder on byte sequences, and the encoder. -/

namespace Sys2Proof

/-- R50: `OP`, bits 2:0. -/
def opField (c : Byte) : BitVec 3 := c.extractLsb' 0 3

/-- R50, R52: `MODE`, bits 4:3. -/
def modeField (c : Byte) : BitVec 2 := c.extractLsb' 3 2

/-- R50, R53: `PAD`, bits 6:5. -/
def padField (c : Byte) : BitVec 2 := c.extractLsb' 5 2

/-- R50, R54: `IVP`, bit 7. -/
def ivpField (c : Byte) : Bool := c.getLsbD 7

/-- Bits 7:3, which must be zero when `OP` is 0, 1 or 2 (R55, R57). -/
def hiField (c : Byte) : BitVec 5 := c.extractLsb' 3 5

/-- R57, R58 for `OP` 0, 1, 2: the command itself when bits 7:3 are zero, else the illegal row of
the highest bit that is set. -/
def decodeUnit (hi : BitVec 5) (legal : Instr) (bit7 bit6 bit5 bit4 : BitVec 5 → Instr)
    (bit3 : Instr) : Instr :=
  if hi = 0#5 then legal
  else if hi.getLsbD 4 then bit7 hi
  else if hi.getLsbD 3 then bit6 hi
  else if hi.getLsbD 2 then bit5 hi
  else if hi.getLsbD 1 then bit4 hi
  else bit3

/-- R58 for `OP = 3`: `ENCRYPT(MODE, PAD, IVP)`, by the rows of R59. -/
def decodeEncrypt (mode pad : BitVec 2) (ivp : Bool) : Instr :=
  match mode.toNat, pad.toNat with
  | 0, 0 => .encEcbNone ivp
  | 0, 1 => .encEcbPkcs7 ivp
  | 0, 2 => .encEcbZero ivp
  | 1, 0 => .encCbcNone ivp
  | 1, 1 => .encCbcPkcs7 ivp
  | 1, 2 => .encCbcZero ivp
  | 0, _ => .encRsvPad mode ivp
  | 1, _ => .encRsvPad mode ivp
  | _, _ => .encRsvMode mode pad ivp

/-- R58 for `OP = 4`: `DECRYPT(MODE, PAD, IVP)`, by the rows of R59. -/
def decodeDecrypt (mode pad : BitVec 2) (ivp : Bool) : Instr :=
  match mode.toNat, pad.toNat with
  | 0, 0 => .decEcbNone ivp
  | 0, 1 => .decEcbPkcs7 ivp
  | 0, 2 => .decEcbZero ivp
  | 1, 0 => .decCbcNone ivp
  | 1, 1 => .decCbcPkcs7 ivp
  | 1, 2 => .decCbcZero ivp
  | 0, _ => .decRsvPad mode ivp
  | 1, _ => .decRsvPad mode ivp
  | _, _ => .decRsvMode mode pad ivp

/-- R58 `Decode(CMD)`: every one of the 256 words is exactly one row. -/
def decode (c : Byte) : Instr :=
  match (opField c).toNat with
  | 0 => decodeUnit (hiField c) .keysched .illegalKeyschedBit7 .illegalKeyschedBit6
      .illegalKeyschedBit5 .illegalKeyschedBit4 .illegalKeyschedBit3
  | 1 => decodeUnit (hiField c) .encblk .illegalEncblkBit7 .illegalEncblkBit6
      .illegalEncblkBit5 .illegalEncblkBit4 .illegalEncblkBit3
  | 2 => decodeUnit (hiField c) .decblk .illegalDecblkBit7 .illegalDecblkBit6
      .illegalDecblkBit5 .illegalDecblkBit4 .illegalDecblkBit3
  | 3 => decodeEncrypt (modeField c) (padField c) (ivpField c)
  | 4 => decodeDecrypt (modeField c) (padField c) (ivpField c)
  | 5 => .illegalOp5 (hiField c)
  | 6 => .illegalOp6 (hiField c)
  | _ => .illegalOp7 (hiField c)

/-- Why a byte sequence holds no command word. -/
inductive DecodeError where
  /-- There is no byte to read; every byte there is decodes. -/
  | endOfInput
  deriving DecidableEq, Repr

/-- The decoder on any bytes: one command word is one byte (R50), the rest is handed back. -/
def decodeBytes : List Byte → Except DecodeError (Instr × List Byte)
  | [] => .error .endOfInput
  | c :: rest => .ok (decode c, rest)

/-- R50: `CMD = IVP*128 + PAD*32 + MODE*8 + OP`. -/
def msgWord (op : BitVec 3) (mode pad : BitVec 2) (ivp : Bool) : Byte :=
  BitVec.ofBool ivp ++ pad ++ mode ++ op

/-- R55: bits 7:3 over `OP`, for the words whose bits 7:3 are one field. -/
def hiWord (op : BitVec 3) (hi : BitVec 5) : Byte := hi ++ op

/-- The command word of an instruction, from the table of R59 and the masks of R57. -/
def encodeWord : Instr → Byte
  | .keysched => hiWord 0 0
  | .encblk => hiWord 1 0
  | .decblk => hiWord 2 0
  | .encEcbNone ivp => msgWord 3 0 0 ivp
  | .encEcbPkcs7 ivp => msgWord 3 0 1 ivp
  | .encEcbZero ivp => msgWord 3 0 2 ivp
  | .encCbcNone ivp => msgWord 3 1 0 ivp
  | .encCbcPkcs7 ivp => msgWord 3 1 1 ivp
  | .encCbcZero ivp => msgWord 3 1 2 ivp
  | .decEcbNone ivp => msgWord 4 0 0 ivp
  | .decEcbPkcs7 ivp => msgWord 4 0 1 ivp
  | .decEcbZero ivp => msgWord 4 0 2 ivp
  | .decCbcNone ivp => msgWord 4 1 0 ivp
  | .decCbcPkcs7 ivp => msgWord 4 1 1 ivp
  | .decCbcZero ivp => msgWord 4 1 2 ivp
  | .encRsvMode mode pad ivp => msgWord 3 mode pad ivp
  | .decRsvMode mode pad ivp => msgWord 4 mode pad ivp
  | .encRsvPad mode ivp => msgWord 3 mode 3 ivp
  | .decRsvPad mode ivp => msgWord 4 mode 3 ivp
  | .illegalOp5 hi => hiWord 5 hi
  | .illegalOp6 hi => hiWord 6 hi
  | .illegalOp7 hi => hiWord 7 hi
  | .illegalKeyschedBit7 hi => hiWord 0 hi
  | .illegalKeyschedBit6 hi => hiWord 0 hi
  | .illegalKeyschedBit5 hi => hiWord 0 hi
  | .illegalKeyschedBit4 hi => hiWord 0 hi
  | .illegalKeyschedBit3 => hiWord 0 1
  | .illegalEncblkBit7 hi => hiWord 1 hi
  | .illegalEncblkBit6 hi => hiWord 1 hi
  | .illegalEncblkBit5 hi => hiWord 1 hi
  | .illegalEncblkBit4 hi => hiWord 1 hi
  | .illegalEncblkBit3 => hiWord 1 1
  | .illegalDecblkBit7 hi => hiWord 2 hi
  | .illegalDecblkBit6 hi => hiWord 2 hi
  | .illegalDecblkBit5 hi => hiWord 2 hi
  | .illegalDecblkBit4 hi => hiWord 2 hi
  | .illegalDecblkBit3 => hiWord 2 1

/-- The bytes of an instruction: its one command word. -/
def encode (i : Instr) : List Byte := [encodeWord i]

/-- The instruction the decoder reads from an opcode-table word: one byte, so `nbits` is 8. -/
def decodeTableWord (nbits w : Nat) : Option Instr :=
  if nbits = 8 ∧ w < 256 then
    match decodeBytes [BitVec.ofNat 8 w] with
    | .ok (i, _) => some i
    | .error _ => none
  else none

end Sys2Proof
end

