-- ==== Sys2Proof/Machine/Operands.lean ====
section
/-! DEFINITION. Operands: which descriptor fields a command reads (10_state.md R17; 30_encoding.md
R54, R55), whether a descriptor supplies them (R25), and the operands taken from it. Every operand
is a whole descriptor field; there are no immediates and no register numbers (R55). -/

namespace Sys2Proof.Machine

/-- Whether a descriptor supplies a field. -/
def Descriptor.supplies (d : Descriptor) : DescField → Bool
  | .key => d.key.isSome
  | .iv => d.iv.isSome
  | .data => d.data.isSome
  | .block => d.block.isSome
  | .rk => d.rk.isSome

/-- R55 format `MSG`: `KEY`, `DATA`, and `IV` when `MODE = 1`; when `IVP = 0` "`IV` and `IVLEN` are
ignored" (R54, log 10). -/
def msgFields (mode : BitVec 2) (ivp : Bool) : List DescField :=
  if mode = 1#2 ∧ ivp = true then [.key, .data, .iv] else [.key, .data]

/-- R17, R55: the descriptor fields each command reads. An illegal word reads none (R25, R57). -/
def fieldsRead : Instr → List DescField
  | .keysched => [.key]
  | .encblk | .decblk => [.block, .rk]
  | .encEcbNone ivp | .encEcbPkcs7 ivp | .encEcbZero ivp
  | .decEcbNone ivp | .decEcbPkcs7 ivp | .decEcbZero ivp => msgFields 0#2 ivp
  | .encCbcNone ivp | .encCbcPkcs7 ivp | .encCbcZero ivp
  | .decCbcNone ivp | .decCbcPkcs7 ivp | .decCbcZero ivp => msgFields 1#2 ivp
  | .encRsvMode mode _ ivp | .decRsvMode mode _ ivp
  | .encRsvPad mode ivp | .decRsvPad mode ivp => msgFields mode ivp
  | .illegalOp5 _ | .illegalOp6 _ | .illegalOp7 _
  | .illegalKeyschedBit7 _ | .illegalKeyschedBit6 _ | .illegalKeyschedBit5 _
  | .illegalKeyschedBit4 _ | .illegalKeyschedBit3
  | .illegalEncblkBit7 _ | .illegalEncblkBit6 _ | .illegalEncblkBit5 _
  | .illegalEncblkBit4 _ | .illegalEncblkBit3
  | .illegalDecblkBit7 _ | .illegalDecblkBit6 _ | .illegalDecblkBit5 _
  | .illegalDecblkBit4 _ | .illegalDecblkBit3 => []

/-- R25: the first field that is read and not supplied. -/
def firstAbsent (d : Descriptor) (fields : List DescField) : Option DescField :=
  fields.find? fun f => !d.supplies f

/-- R5: the first sequence longer than its capacity; such a descriptor "cannot be formed" (D17). -/
def firstOverCap (caps : Config.Capacities) (d : Descriptor) : Option DescField :=
  if !Config.fitsCap caps.keyCap (d.key.getD []).length then some .key
  else if !Config.fitsCap caps.ivCap (d.iv.getD []).length then some .iv
  else if !Config.fitsCap caps.maxLen (d.data.getD []).length then some .data
  else none

/-- The operand of `KEYSCHED`: `KEY` with its length (R93). -/
def keyOperand (d : Descriptor) : Except DescField (List Byte) :=
  match d.key with
  | some key => .ok key
  | none => .error .key

/-- The operands of `ENCBLK` and `DECBLK`: `BLOCK` and `RK` (R101, R102). -/
def blockOperands (d : Descriptor) : Except DescField (Block × Schedule) :=
  match d.block, d.rk with
  | some b, some ks => .ok (b, ks)
  | none, _ => .error .block
  | some _, none => .error .rk

/-- The operands of `ENCRYPT` and `DECRYPT` (R125, R126); `iv` is the source's `bytes[16]|none`. -/
structure MsgOperands where
  key  : List Byte
  iv   : Option (List Byte)
  data : List Byte
  deriving DecidableEq, Repr

/-- R54: in CBC mode with `IVP = 1` the IV is `IV`; in every other case none is looked at. -/
def msgOperands (mode : BitVec 2) (ivp : Bool) (d : Descriptor) : Except DescField MsgOperands :=
  match d.key, d.data with
  | none, _ => .error .key
  | some _, none => .error .data
  | some key, some data =>
    if mode = 1#2 ∧ ivp = true then
      match d.iv with
      | some iv => .ok { key, iv := some iv, data }
      | none => .error .iv
    else .ok { key, iv := none, data }

end Sys2Proof.Machine
end

