-- ==== Sys2Proof/Machine/Ops.lean ====
section
/-! DEFINITION. The shared operations: reading a working register, the loop over a counter register, `MemRead` and
`MemWrite` (20_memory.md R34, R35), `raise` (60_exceptions.md R148), the end of a command
(10_state.md R26) and the frame every meaning runs in. -/

namespace Sys2Proof.Machine

/-- What ends a running command early. -/
inductive Stop where
  /-- R148: `raise E`, a response. -/
  | raised (e : ErrorKind)
  /-- R21: a working register that holds no value was read. -/
  | noValue (r : WorkReg)
  /-- R34, R35: an access outside a byte space. -/
  | outside (space : Space) (addr n : Nat)
  deriving DecidableEq, Repr

/-- R8 `x[i]`, R21: read a working register; one that holds no value has no meaning. -/
def readReg {α : Type} (r : WorkReg) (v : Option α) : Except Stop α :=
  match v with
  | some a => .ok a
  | none => .error (.noValue r)

/-- A loop counter held in a working register (R14): where it is read and how it is written. -/
structure Counter (σ : Type) where
  reg : WorkReg
  get : σ → Option Nat
  put : Nat → σ → σ

/-- R14 `i`: the round counter of `KEYEXP` and of `CRYPT`. -/
def roundCounter : Counter Work := ⟨.i, Work.i, fun n w => { w with i := some n }⟩

/-- R14 `j`: the block counter of a mode controller. -/
def blockCounter : Counter Work := ⟨.j, Work.j, fun n w => { w with j := some n }⟩

/-- The same register beside a value that is no register. -/
def Counter.beside {σ : Type} (α : Type) (c : Counter σ) : Counter (α × σ) :=
  ⟨c.reg, fun p => c.get p.2, fun n p => (p.1, c.put n p.2)⟩

/-- The turns of `forCounter`: read the counter; below `n` run the body for it and put the next
number, else the loop is over. `fuel` bounds the turns and never runs out (`forCounter_inv`). -/
def turns {σ : Type} (c : Counter σ) (n : Nat) (body : Fin n → σ → Except Stop σ) :
    (fuel : Nat) → σ → Except Stop σ
  | 0, s => .ok s
  | fuel + 1, s => do
    let k ← readReg c.reg (c.get s)
    if h : k < n then do
      let s ← body ⟨k, h⟩ s
      turns c n body fuel (c.put (k + 1) s)
    else .ok s

/-- R8 `for c = 0 .. n-1:` with `c` a working register, in increasing order; it ends at the first
stop. -/
def forCounter {σ : Type} (c : Counter σ) (n : Nat) (body : Fin n → σ → Except Stop σ) (s : σ) :
    Except Stop σ :=
  turns c n body (n + 1) (c.put 0 s)

/-- R30: the contents of a byte space, when it holds a value. -/
def spaceBytes (s : State) : Space → Option (List Byte)
  | .key => s.latch.bind (·.key)
  | .iv => s.latch.bind (·.iv)
  | .data => s.latch.bind (·.data)
  | .block => (s.latch.bind (·.block)).map (·.toList)
  | .out => s.resp.out
  | .blkout => s.resp.blkout.map (·.toList)

/-- R34: `MemRead(space, addr, n)`; `none` for a space that holds no value or an access past its
end. -/
def memRead (s : State) (space : Space) (addr n : Nat) : Option (List Byte) :=
  (spaceBytes s space).bind fun b => sliceBytes b addr n

/-- R35: the two spaces the engine writes. -/
inductive OutSpace where
  | out
  | blkout
  deriving DecidableEq, Repr

/-- `b` with the bytes of `v` written from offset `addr` on. -/
def splice (b : List Byte) (addr : Nat) (v : List Byte) : List Byte :=
  b.take addr ++ v ++ b.drop (addr + v.length)

/-- R30: an output space as one of the six byte spaces. -/
def OutSpace.toSpace : OutSpace → Space
  | .out => .out
  | .blkout => .blkout

/-- The bytes an output space holds so far; none when it holds no value. -/
def OutSpace.bytes (r : Response) : OutSpace → List Byte
  | .out => r.out.getD []
  | .blkout => (r.blkout.map (·.toList)).getD []

/-- The response with these bytes in an output space; `BLKOUT` takes exactly 16 (R19). -/
def OutSpace.put (r : Response) (b : List Byte) : OutSpace → Option Response
  | .out => some { r with out := some b }
  | .blkout => (asBlock b).map fun b => { r with blkout := some b }

/-- R35: `MemWrite(space, addr, n, v)` with `n = len(v)`: `space[addr+k] <- v[k]`. A space is written
"with no gaps", so `addr` is at most its present length, and `BLKOUT` is left with exactly 16 bytes
(R19, log 24); any other write is outside the space. -/
def memWrite (space : OutSpace) (addr : Nat) (v : List Byte) (r : Response) :
    Except Stop Response :=
  if addr ≤ (space.bytes r).length then
    match space.put r (splice (space.bytes r) addr v) with
    | some r => .ok r
    | none => .error (.outside space.toSpace addr v.length)
  else .error (.outside space.toSpace addr v.length)

/-- R148: the response of an error: `ERR <- E`, `OLEN <- 0`, no output field holds a value. -/
def Response.failed (e : ErrorKind) : Response :=
  { Response.noValue with err := some (.error e), olen := some 0 }

/-- R93, R101, R102, R125, R126, last line: `ERR <- OK` and `OLEN <- n`. -/
def Response.succeed (r : Response) (n : Nat) : Response :=
  { r with err := some .ok, olen := some n }

/-- R26: the end of every command, "all at once": the response is written, `LATCH` and all working
registers hold no value, `PHASE <- DONE`. -/
def finish (r : Response) (s : State) : State :=
  { s with resp := r, latch := none, work := .noValue, phase := .done }

/-- R148 `raise E`, the one way an error is taken. Nothing else is recorded (R150), and there is no
return from it: the next `issue` is accepted as after any command (R152). -/
def raiseError (e : ErrorKind) (s : State) : State := finish (.failed e) s

/-- R26: `complete` with the result of the running command. -/
def complete (s : State) (result : Except Stop Response) : Host.Outcome State Fault Refusal :=
  match result with
  | .ok r => .next (finish r s)
  | .error (.raised e) => .next (raiseError e s)
  | .error (.noValue r) => .refused (.registerNoValue r)
  | .error (.outside space addr n) => .fault (.outsideBuffer space addr n)

/-- R26: the frame of every meaning. Its condition is `PHASE = BUSY`; its operands come from the
latched descriptor; `run` computes the response from the tables and the working registers. -/
def runCommand {α : Type} (s : State) (operands : Descriptor → Except DescField α)
    (run : α → Except Stop Response) : Host.Outcome State Fault Refusal :=
  match s.phase with
  | .idle => .refused .notBusy
  | .done => .refused .notBusy
  | .busy =>
    match s.latch with
    | none => .refused .latchNoValue
    | some d =>
      match operands d with
      | .error f => .refused (.fieldAbsent f)
      | .ok a => complete s (run a)

/-- R25: the effect of an accepted `issue(d)`: latched, every response field invalidated, BUSY. -/
def accept (d : Descriptor) (s : State) : State :=
  { s with latch := some d, resp := .noValue, phase := .busy }

/-- R170: reset, from any phase; a command in flight is discarded. The capacities are the machine's
and the host side is the host's own (log 14). -/
def resetEngine (s : State) : State := { State.reset with caps := s.caps, host := s.host }

end Sys2Proof.Machine
end

