-- ==== Sys2Proof/Machine/Illegal.lean ====
section
/-! DEFINITION. The words that decode to no command (30_encoding.md R57, 60_exceptions.md R147): each
completes with `IllegalCommand`, decided from `CMD` alone, before any descriptor field is read. -/

namespace Sys2Proof.Machine

/-- R57: an illegal word reads no descriptor field. -/
def noOperands (_ : Descriptor) : Except DescField Unit := .ok ()

/-- R57, R147: `raise IllegalCommand`. -/
def illegalCommand (_ : Unit) : Except Stop Response := .error (.raised .illegalCommand)

/-- R57: the completion every illegal word has. -/
def runIllegal (s : State) : Host.Outcome State Fault Refusal :=
  runCommand s noOperands illegalCommand

/-- `ILLEGAL.OP5` (R57); bits 7:3 choose nothing. -/
def execIllegalOp5 (_hi : BitVec 5) (s : State) : Host.Outcome State Fault Refusal :=
  runIllegal s

/-- `ILLEGAL.OP6` (R57); bits 7:3 choose nothing. -/
def execIllegalOp6 (_hi : BitVec 5) (s : State) : Host.Outcome State Fault Refusal :=
  runIllegal s

/-- `ILLEGAL.OP7` (R57); bits 7:3 choose nothing. -/
def execIllegalOp7 (_hi : BitVec 5) (s : State) : Host.Outcome State Fault Refusal :=
  runIllegal s

/-- `ILLEGAL.KEYSCHED.BIT7` (R57); bits 7:3 choose nothing. -/
def execIllegalKeyschedBit7 (_hi : BitVec 5) (s : State) : Host.Outcome State Fault Refusal :=
  runIllegal s

/-- `ILLEGAL.KEYSCHED.BIT6` (R57); bits 7:3 choose nothing. -/
def execIllegalKeyschedBit6 (_hi : BitVec 5) (s : State) : Host.Outcome State Fault Refusal :=
  runIllegal s

/-- `ILLEGAL.KEYSCHED.BIT5` (R57); bits 7:3 choose nothing. -/
def execIllegalKeyschedBit5 (_hi : BitVec 5) (s : State) : Host.Outcome State Fault Refusal :=
  runIllegal s

/-- `ILLEGAL.KEYSCHED.BIT4` (R57); bits 7:3 choose nothing. -/
def execIllegalKeyschedBit4 (_hi : BitVec 5) (s : State) : Host.Outcome State Fault Refusal :=
  runIllegal s

/-- `ILLEGAL.KEYSCHED.BIT3` (R57). -/
def execIllegalKeyschedBit3 (s : State) : Host.Outcome State Fault Refusal := runIllegal s

/-- `ILLEGAL.ENCBLK.BIT7` (R57); bits 7:3 choose nothing. -/
def execIllegalEncblkBit7 (_hi : BitVec 5) (s : State) : Host.Outcome State Fault Refusal :=
  runIllegal s

/-- `ILLEGAL.ENCBLK.BIT6` (R57); bits 7:3 choose nothing. -/
def execIllegalEncblkBit6 (_hi : BitVec 5) (s : State) : Host.Outcome State Fault Refusal :=
  runIllegal s

/-- `ILLEGAL.ENCBLK.BIT5` (R57); bits 7:3 choose nothing. -/
def execIllegalEncblkBit5 (_hi : BitVec 5) (s : State) : Host.Outcome State Fault Refusal :=
  runIllegal s

/-- `ILLEGAL.ENCBLK.BIT4` (R57); bits 7:3 choose nothing. -/
def execIllegalEncblkBit4 (_hi : BitVec 5) (s : State) : Host.Outcome State Fault Refusal :=
  runIllegal s

/-- `ILLEGAL.ENCBLK.BIT3` (R57). -/
def execIllegalEncblkBit3 (s : State) : Host.Outcome State Fault Refusal := runIllegal s

/-- `ILLEGAL.DECBLK.BIT7` (R57); bits 7:3 choose nothing. -/
def execIllegalDecblkBit7 (_hi : BitVec 5) (s : State) : Host.Outcome State Fault Refusal :=
  runIllegal s

/-- `ILLEGAL.DECBLK.BIT6` (R57); bits 7:3 choose nothing. -/
def execIllegalDecblkBit6 (_hi : BitVec 5) (s : State) : Host.Outcome State Fault Refusal :=
  runIllegal s

/-- `ILLEGAL.DECBLK.BIT5` (R57); bits 7:3 choose nothing. -/
def execIllegalDecblkBit5 (_hi : BitVec 5) (s : State) : Host.Outcome State Fault Refusal :=
  runIllegal s

/-- `ILLEGAL.DECBLK.BIT4` (R57); bits 7:3 choose nothing. -/
def execIllegalDecblkBit4 (_hi : BitVec 5) (s : State) : Host.Outcome State Fault Refusal :=
  runIllegal s

/-- `ILLEGAL.DECBLK.BIT3` (R57). -/
def execIllegalDecblkBit3 (s : State) : Host.Outcome State Fault Refusal := runIllegal s

end Sys2Proof.Machine
end

