-- ==== Sys2Proof/Machine/Primitives.lean ====
section
/-! DEFINITION. The primitive transforms (41_primitives.md R81 to R85): total functions from a word
to a word, no state, no errors. `ROTL32` (R80) is `rotl32` in Machine/Bits.lean. -/

namespace Sys2Proof.Machine

/-- R70: `SBOX[b]`. -/
def sboxAt (rom : Rom) (b : Byte) : Byte := rom.sbox[b.toNat]'b.isLt

/-- R81 `TAU(w)`: each byte through the S-box, in its own position. -/
def tau (rom : Rom) (w : Word) : Word :=
  be32 (sboxAt rom (wordByte w 0)) (sboxAt rom (wordByte w 1))
    (sboxAt rom (wordByte w 2)) (sboxAt rom (wordByte w 3))

/-- R82 `L(w)`. -/
def lin (w : Word) : Word := w ^^^ rotl32 w 2 ^^^ rotl32 w 10 ^^^ rotl32 w 18 ^^^ rotl32 w 24

/-- R83 `LPRIME(w)`. -/
def linPrime (w : Word) : Word := w ^^^ rotl32 w 13 ^^^ rotl32 w 23

/-- R84 `T(x) = L(TAU(x))`. -/
def tData (rom : Rom) (x : Word) : Word := lin (tau rom x)

/-- R85 `TPRIME(x) = LPRIME(TAU(x))`. -/
def tKey (rom : Rom) (x : Word) : Word := linPrime (tau rom x)

end Sys2Proof.Machine
end

