-- ==== Sys2Proof/Machine/BlockCore.lean ====
section
/-! DEFINITION. The block core (43_block_core.md R100 to R103): the 32-round datapath `CRYPT` and the
commands `ENCBLK` and `DECBLK`, which differ only in the order of the round keys. -/

namespace Sys2Proof.Machine

/-- The order in which `CRYPT` is handed `rk[0..31]`: R101 "keys in order", R102 reversed. -/
inductive KeyOrder where
  | forward
  | reverse
  deriving DecidableEq, Repr

/-- R101, R102: the round key of round `i` is `rk[i]`, or `rk[31-i]`. -/
def KeyOrder.index : KeyOrder → Fin 32 → Fin 32
  | .forward, i => i
  | .reverse, i => i.rev

/-- R100 step 1: `X[0..3]` from the block, big-endian. -/
def cryptLoad (b : Block) (w : Work) : Work :=
  { w with
    X := (((w.X.set 0 (some (blockWord b 0))).set 1 (some (blockWord b 1))).set 2
      (some (blockWord b 2))).set 3 (some (blockWord b 3)) }

/-- R100, one round: `X[i+4] <- X[i] ^ T(X[i+1] ^ X[i+2] ^ X[i+3] ^ r[i])`. -/
def cryptRound (rom : Rom) (order : KeyOrder) (i : Fin 32) (w : Work) : Except Stop Work := do
  let x0 ← readReg (.X i.val) w.X[i.val]
  let x1 ← readReg (.X (i.val + 1)) w.X[i.val + 1]
  let x2 ← readReg (.X (i.val + 2)) w.X[i.val + 2]
  let x3 ← readReg (.X (i.val + 3)) w.X[i.val + 3]
  let r ← readReg (.rk (order.index i).val) w.rk[(order.index i).val]
  .ok { w with
    X := w.X.set (i.val + 4) (some (x0 ^^^ tData rom (x1 ^^^ x2 ^^^ x3 ^^^ r))) }

/-- R100 step 3: the last four words in reverse order, each big-endian. -/
def cryptOutput (w : Work) : Except Stop Block := do
  let x35 ← readReg (.X 35) w.X[35]
  let x34 ← readReg (.X 34) w.X[34]
  let x33 ← readReg (.X 33) w.X[33]
  let x32 ← readReg (.X 32) w.X[32]
  .ok (blockOfWords x35 x34 x33 x32)

/-- R100 `CRYPT(B, r)` with the round keys in the registers `rk` and the rounds counted by
the register `i`. -/
def crypt (rom : Rom) (order : KeyOrder) (b : Block) (w : Work) : Except Stop (Block × Work) := do
  let w ← forCounter roundCounter 32 (cryptRound rom order) (cryptLoad b w)
  let c ← cryptOutput w
  .ok (c, w)

/-- R101, R102: `rk[i] <- d.RK[i]`. -/
def loadSchedule (ks : Schedule) (w : Work) : Work :=
  { w with rk := ⟨(ks.toList.map some).toArray, by simp⟩ }

/-- R101, R102: load the schedule, run `CRYPT`, write `BLKOUT`; `ERR <- OK`, `OLEN <- 0`. -/
def blockCommand (rom : Rom) (order : KeyOrder) (w : Work) (ops : Block × Schedule) :
    Except Stop Response := do
  let (c, _) ← crypt rom order ops.1 (loadSchedule ops.2 w)
  let r ← memWrite .blkout 0 c.toList .noValue
  .ok (r.succeed 0)

/-- `ENCBLK` (R101). -/
def execEncblk (s : State) : Host.Outcome State Fault Refusal :=
  runCommand s blockOperands (blockCommand s.rom .forward s.work)

/-- `DECBLK` (R102). -/
def execDecblk (s : State) : Host.Outcome State Fault Refusal :=
  runCommand s blockOperands (blockCommand s.rom .reverse s.work)

end Sys2Proof.Machine
end

