-- ==== Sys2Proof/Machine/KeySchedule.lean ====
section
/-! DEFINITION. The key-schedule expander and its command (42_key_schedule.md R90 to R94). -/

namespace Sys2Proof.Machine

/-- R90, R91: split the key and seed `K[0..3]` with `FK`. -/
def keySeed (rom : Rom) (key : Block) (w : Work) : Work :=
  { w with
    K := (((w.K.set 0 (some (blockWord key 0 ^^^ rom.fk[0]))).set 1
      (some (blockWord key 1 ^^^ rom.fk[1]))).set 2
      (some (blockWord key 2 ^^^ rom.fk[2]))).set 3
      (some (blockWord key 3 ^^^ rom.fk[3])) }

/-- R92, one round: `K[i+4] <- K[i] ^ TPRIME(K[i+1] ^ K[i+2] ^ K[i+3] ^ CK[i])`,
`rk[i] <- K[i+4]`. -/
def keyRound (rom : Rom) (i : Fin 32) (w : Work) : Except Stop Work := do
  let k0 ← readReg (.K i.val) w.K[i.val]
  let k1 ← readReg (.K (i.val + 1)) w.K[i.val + 1]
  let k2 ← readReg (.K (i.val + 2)) w.K[i.val + 2]
  let k3 ← readReg (.K (i.val + 3)) w.K[i.val + 3]
  let k4 := k0 ^^^ tKey rom (k1 ^^^ k2 ^^^ k3 ^^^ rom.ck[i.val])
  .ok { w with
    K := w.K.set (i.val + 4) (some k4)
    rk := w.rk.set i.val (some k4) }

/-- R90 to R92 `KEYEXP(key)`: the seed, then rounds 0 to 31 counted by the register `i`. -/
def keyexp (rom : Rom) (key : Block) (w : Work) : Except Stop Work :=
  forCounter roundCounter 32 (keyRound rom) (keySeed rom key w)

/-- R93: the 32 registers `rk[0..31]` as one schedule. -/
def rkValues (w : Work) : Except Stop Schedule :=
  if w.rk.toList.all Option.isSome then
    .ok ⟨(w.rk.toList.map fun v => v.getD 0).toArray, by simp⟩
  else .error (.noValue (.rk (w.rk.toList.findIdx Option.isNone)))

/-- R93 `KEYSCHED`: the length check, the expansion, `RKOUT <- rk`, `ERR <- OK`, `OLEN <- 0`. -/
def keysched (rom : Rom) (w : Work) (key : List Byte) : Except Stop Response :=
  match asBlock key with
  | none => .error (.raised .invalidKeyLength)
  | some k => do
    let w ← keyexp rom k w
    let ks ← rkValues w
    .ok (Response.succeed { Response.noValue with rkout := some ks } 0)

/-- `KEYSCHED` (R93). -/
def execKeysched (s : State) : Host.Outcome State Fault Refusal :=
  runCommand s keyOperand (keysched s.rom s.work)

end Sys2Proof.Machine
end

