-- ==== Sys2Proof/Machine/Padding.lean ====
section
/-! DEFINITION. The padding adders and removers (44_padding.md R110 to R116). The byte functions
come first; the units put their results in the working registers `P` and `padLen`. -/

namespace Sys2Proof.Machine

/-- R53: the three padding choices that exist. -/
inductive Padding where
  | none
  | pkcs7
  | zero
  deriving DecidableEq, Repr

/-- R110: `padLen = 16 - (n mod 16)`, always 1 to 16. -/
def pkcs7PadLen (n : Nat) : Nat := 16 - n % 16

/-- R110 `PKCS7.ADD(b)`. -/
def pkcs7Add (b : List Byte) : List Byte :=
  b ++ List.replicate (pkcs7PadLen b.length) (BitVec.ofNat 8 (pkcs7PadLen b.length))

/-- R111: the checks of `PKCS7.REMOVE` on the `padLen` it read, and what is left; `none` is
`raise InvalidPadding`. `padLen` must be 1 to 16 and at most `n`, and each of the last `padLen` bytes
must equal it. -/
def pkcs7Strip (b : List Byte) (padLen : Byte) : Option (List Byte) :=
  if padLen.toNat = 0 ∨ 16 < padLen.toNat then none
  else if b.length < padLen.toNat then none
  else if (b.drop (b.length - padLen.toNat)).all (· == padLen) then
    some (b.take (b.length - padLen.toNat))
  else none

/-- R111 `PKCS7.REMOVE(b)`: the last byte is `padLen`; an empty `b` has none (D14). -/
def pkcs7Remove (b : List Byte) : Option (List Byte) := b.getLast?.bind (pkcs7Strip b)

/-- R112 `ZERO.ADD(b)`. -/
def zeroAdd (b : List Byte) : List Byte :=
  if b.length % 16 = 0 then b else b ++ List.replicate (16 - b.length % 16) 0

/-- R113 `ZERO.REMOVE(b)`: strip every trailing zero byte. -/
def zeroRemove (b : List Byte) : List Byte := (b.reverse.dropWhile (· == 0)).reverse

/-- R114 `NONE.ADD(b)`; `none` is `raise InvalidInputLength`. -/
def noneAdd (b : List Byte) : Option (List Byte) := if b.length % 16 = 0 then some b else none

/-- R115 `NONE.REMOVE(b) = b`. -/
def noneRemove (b : List Byte) : List Byte := b

/-- R110, R14: `PKCS7.ADD` on the register `padLen`, computed first and then read. -/
def pkcs7AddUnit (b : List Byte) (w : Work) : Except Stop Work := do
  let w := { w with padLen := some (BitVec.ofNat 8 (pkcs7PadLen b.length)) }
  let padLen ← readReg .padLen w.padLen
  .ok { w with P := some (b ++ List.replicate padLen.toNat padLen) }

/-- R111, R14: `PKCS7.REMOVE` on the register `padLen`: the last byte goes there, whatever it is, and
is then read for the checks. -/
def pkcs7RemoveUnit (b : List Byte) (w : Work) : Except Stop (List Byte × Work) :=
  match b.getLast? with
  | none => .error (.raised .invalidPadding)
  | some last => do
    let w := { w with padLen := some last }
    let padLen ← readReg .padLen w.padLen
    match pkcs7Strip b padLen with
    | none => .error (.raised .invalidPadding)
    | some m => .ok (m, w)

/-- R116 `PAD.ADD(pad, b)`: the padded plaintext goes to `P`. -/
def padAdd (pad : Padding) (b : List Byte) (w : Work) : Except Stop Work :=
  match pad with
  | .none =>
    match noneAdd b with
    | none => .error (.raised .invalidInputLength)
    | some p => .ok { w with P := some p }
  | .pkcs7 => pkcs7AddUnit b w
  | .zero => .ok { w with P := some (zeroAdd b) }

/-- R116 `PAD.REMOVE(pad, P)`: the plaintext of the decrypted buffer in `P`. -/
def padRemove (pad : Padding) (w : Work) : Except Stop (List Byte × Work) := do
  let p ← readReg .P w.P
  match pad with
  | .none => .ok (noneRemove p, w)
  | .pkcs7 => pkcs7RemoveUnit p w
  | .zero => .ok (zeroRemove p, w)

end Sys2Proof.Machine
end

