-- ==== Sys2Proof/Machine/Modes.lean ====
section
/-! DEFINITION. The front end, the mode controllers and the whole-message commands (45_modes.md R120
to R129): one `encrypt` and one `decrypt` over `MODE`, `PAD` and the operands, and a meaning for
each of the 16 `MSG` rows. -/

namespace Sys2Proof.Machine

/-- What `VALIDATE` selects: ECB, or CBC with its 16-byte IV. -/
inductive Chain where
  | ecb
  | cbc (iv : Block)
  deriving DecidableEq, Repr

/-- What `VALIDATE` leaves: a 16-byte key, a chaining mode and a padding that exist. -/
structure Selection where
  key   : Block
  chain : Chain
  pad   : Padding
  deriving DecidableEq, Repr

/-- R120 steps 2 and 3: in CBC the IV must be there and have 16 bytes; `MODE` 2 and 3 are
unsupported; ECB looks at no IV (C1). -/
def selectChain (mode : BitVec 2) (iv : Option (List Byte)) : Except ErrorKind Chain :=
  match mode.toNat with
  | 0 => .ok .ecb
  | 1 =>
    match iv.bind asBlock with
    | some v => .ok (.cbc v)
    | none => .error .invalidIVLength
  | _ => .error .unsupportedMode

/-- R120 step 4, R53: `PAD` 3 is unsupported. -/
def selectPadding (pad : BitVec 2) : Except ErrorKind Padding :=
  match pad.toNat with
  | 0 => .ok .none
  | 1 => .ok .pkcs7
  | 2 => .ok .zero
  | _ => .error .unsupportedPadding

/-- R120 `VALIDATE(d)`, steps 1 to 4 in this order (R149, log 7). -/
def validate (mode pad : BitVec 2) (ops : MsgOperands) : Except ErrorKind Selection :=
  match asBlock ops.key with
  | none => .error .invalidKeyLength
  | some key => do
    let chain ← selectChain mode ops.iv
    let pad ← selectPadding pad
    .ok { key, chain, pad }

/-- `VALIDATE` as a unit of a command: its errors are raised. -/
def validateUnit (mode pad : BitVec 2) (ops : MsgOperands) : Except Stop Selection :=
  match validate mode pad ops with
  | .ok sel => .ok sel
  | .error e => .error (.raised e)

/-- R121 `ECB.ENC(P, rk)`, block `j`: `C = C ++ ENC1(P[16j .. 16j+15], rk)`. -/
def ecbEncBlock (rom : Rom) (p : List Byte) (j : Fin (p.length / 16)) (st : List Byte × Work) :
    Except Stop (List Byte × Work) := do
  let (c, w) ← crypt rom .forward (blockAt p j) st.2
  .ok (st.1 ++ c.toList, w)

/-- R121 `ECB.ENC(P, rk)`. -/
def ecbEnc (rom : Rom) (w : Work) : Except Stop (List Byte × Work) := do
  let p ← readReg .P w.P
  forCounter (blockCounter.beside _) (p.length / 16) (ecbEncBlock rom p) ([], w)

/-- R122 `ECB.DEC(C, rk)`, block `j`: `P = P ++ DEC1(C[16j .. 16j+15], rk)`. -/
def ecbDecBlock (rom : Rom) (c : List Byte) (j : Fin (c.length / 16)) (w : Work) :
    Except Stop Work := do
  let (b, w) ← crypt rom .reverse (blockAt c j) w
  let p ← readReg .P w.P
  .ok { w with P := some (p ++ b.toList) }

/-- R122 `ECB.DEC(C, rk)`. -/
def ecbDec (rom : Rom) (c : List Byte) (w : Work) : Except Stop Work :=
  forCounter blockCounter (c.length / 16) (ecbDecBlock rom c) { w with P := some [] }

/-- R123 `CBC.ENC(P, rk, iv)`, block `j`: the XOR with `PREV` comes before the encryption and
`PREV` becomes the ciphertext block. -/
def cbcEncBlock (rom : Rom) (p : List Byte) (j : Fin (p.length / 16)) (st : List Byte × Work) :
    Except Stop (List Byte × Work) := do
  let prev ← readReg .PREV st.2.PREV
  let (c, w) ← crypt rom .forward (xor16 (blockAt p j) prev) st.2
  .ok (st.1 ++ c.toList, { w with PREV := some c })

/-- R123 `CBC.ENC(P, rk, iv)`. -/
def cbcEnc (rom : Rom) (iv : Block) (w : Work) : Except Stop (List Byte × Work) := do
  let p ← readReg .P w.P
  forCounter (blockCounter.beside _) (p.length / 16) (cbcEncBlock rom p)
    ([], { w with PREV := some iv })

/-- R124 `CBC.DEC(C, rk, iv)`, block `j`: the XOR with `PREV` comes after the decryption and
`PREV` becomes the ciphertext block, never the plaintext. -/
def cbcDecBlock (rom : Rom) (c : List Byte) (j : Fin (c.length / 16)) (w : Work) :
    Except Stop Work := do
  let (b, w) ← crypt rom .reverse (blockAt c j) w
  let prev ← readReg .PREV w.PREV
  let p ← readReg .P w.P
  .ok { w with
    P := some (p ++ (xor16 b prev).toList)
    PREV := some (blockAt c j) }

/-- R124 `CBC.DEC(C, rk, iv)`. -/
def cbcDec (rom : Rom) (iv : Block) (c : List Byte) (w : Work) : Except Stop Work :=
  forCounter blockCounter (c.length / 16) (cbcDecBlock rom c)
    { w with P := some [], PREV := some iv }

/-- R125, R126, last line: `MemWrite(OUT, 0, len, b)`, then `OLEN` and `ERR`. -/
def outResponse (b : List Byte) : Except Stop Response := do
  let r ← memWrite .out 0 b .noValue
  .ok (r.succeed b.length)

/-- R125 `ENCRYPT(d)`: validate, pad, expand the key once, run the mode controller. -/
def encrypt (rom : Rom) (w : Work) (mode pad : BitVec 2) (ops : MsgOperands) :
    Except Stop Response := do
  let sel ← validateUnit mode pad ops
  let w ← padAdd sel.pad ops.data w
  let w ← keyexp rom sel.key w
  let (c, _) ← match sel.chain with
    | .ecb => ecbEnc rom w
    | .cbc iv => cbcEnc rom iv w
  outResponse c

/-- R126 `DECRYPT(d)`: validate, check the length (for every `PAD`), expand the key, run the mode
controller over all blocks, then remove the padding. -/
def decrypt (rom : Rom) (w : Work) (mode pad : BitVec 2) (ops : MsgOperands) :
    Except Stop Response := do
  let sel ← validateUnit mode pad ops
  if ops.data.length % 16 ≠ 0 then .error (.raised .invalidInputLength) else
    let w ← keyexp rom sel.key w
    let w ← match sel.chain with
      | .ecb => ecbDec rom ops.data w
      | .cbc iv => cbcDec rom iv ops.data w
    let (m, _) ← padRemove sel.pad w
    outResponse m

/-- An `ENCRYPT` command word with these `MODE`, `PAD`, `IVP` (R125). -/
def runEncrypt (mode pad : BitVec 2) (ivp : Bool) (s : State) : Host.Outcome State Fault Refusal :=
  runCommand s (msgOperands mode ivp) (encrypt s.rom s.work mode pad)

/-- A `DECRYPT` command word with these `MODE`, `PAD`, `IVP` (R126). -/
def runDecrypt (mode pad : BitVec 2) (ivp : Bool) (s : State) : Host.Outcome State Fault Refusal :=
  runCommand s (msgOperands mode ivp) (decrypt s.rom s.work mode pad)

/-- `ENC.ECB.NONE`: `MODE = 0`, `PAD = 0` (R59, R125). -/
def execEncEcbNone (ivp : Bool) (s : State) : Host.Outcome State Fault Refusal :=
  runEncrypt 0#2 0#2 ivp s

/-- `ENC.ECB.PKCS7`: `MODE = 0`, `PAD = 1` (R59, R125). -/
def execEncEcbPkcs7 (ivp : Bool) (s : State) : Host.Outcome State Fault Refusal :=
  runEncrypt 0#2 1#2 ivp s

/-- `ENC.ECB.ZERO`: `MODE = 0`, `PAD = 2` (R59, R125). -/
def execEncEcbZero (ivp : Bool) (s : State) : Host.Outcome State Fault Refusal :=
  runEncrypt 0#2 2#2 ivp s

/-- `ENC.CBC.NONE`: `MODE = 1`, `PAD = 0` (R59, R125). -/
def execEncCbcNone (ivp : Bool) (s : State) : Host.Outcome State Fault Refusal :=
  runEncrypt 1#2 0#2 ivp s

/-- `ENC.CBC.PKCS7`: `MODE = 1`, `PAD = 1` (R59, R125). -/
def execEncCbcPkcs7 (ivp : Bool) (s : State) : Host.Outcome State Fault Refusal :=
  runEncrypt 1#2 1#2 ivp s

/-- `ENC.CBC.ZERO`: `MODE = 1`, `PAD = 2` (R59, R125). -/
def execEncCbcZero (ivp : Bool) (s : State) : Host.Outcome State Fault Refusal :=
  runEncrypt 1#2 2#2 ivp s

/-- `ENC.RSVMODE`: `MODE` 2 or 3, so R120 step 3 ends it unless step 1 does. -/
def execEncRsvMode (mode pad : BitVec 2) (ivp : Bool) (s : State) :
    Host.Outcome State Fault Refusal :=
  runEncrypt mode pad ivp s

/-- `ENC.RSVPAD`: `PAD = 3`, so R120 step 4 ends it unless step 1 or 2 does. -/
def execEncRsvPad (mode : BitVec 2) (ivp : Bool) (s : State) : Host.Outcome State Fault Refusal :=
  runEncrypt mode 3#2 ivp s

/-- `DEC.ECB.NONE`: `MODE = 0`, `PAD = 0` (R59, R126). -/
def execDecEcbNone (ivp : Bool) (s : State) : Host.Outcome State Fault Refusal :=
  runDecrypt 0#2 0#2 ivp s

/-- `DEC.ECB.PKCS7`: `MODE = 0`, `PAD = 1` (R59, R126). -/
def execDecEcbPkcs7 (ivp : Bool) (s : State) : Host.Outcome State Fault Refusal :=
  runDecrypt 0#2 1#2 ivp s

/-- `DEC.ECB.ZERO`: `MODE = 0`, `PAD = 2` (R59, R126). -/
def execDecEcbZero (ivp : Bool) (s : State) : Host.Outcome State Fault Refusal :=
  runDecrypt 0#2 2#2 ivp s

/-- `DEC.CBC.NONE`: `MODE = 1`, `PAD = 0` (R59, R126). -/
def execDecCbcNone (ivp : Bool) (s : State) : Host.Outcome State Fault Refusal :=
  runDecrypt 1#2 0#2 ivp s

/-- `DEC.CBC.PKCS7`: `MODE = 1`, `PAD = 1` (R59, R126). -/
def execDecCbcPkcs7 (ivp : Bool) (s : State) : Host.Outcome State Fault Refusal :=
  runDecrypt 1#2 1#2 ivp s

/-- `DEC.CBC.ZERO`: `MODE = 1`, `PAD = 2` (R59, R126). -/
def execDecCbcZero (ivp : Bool) (s : State) : Host.Outcome State Fault Refusal :=
  runDecrypt 1#2 2#2 ivp s

/-- `DEC.RSVMODE`: `MODE` 2 or 3, so R120 step 3 ends it unless step 1 does. -/
def execDecRsvMode (mode pad : BitVec 2) (ivp : Bool) (s : State) :
    Host.Outcome State Fault Refusal :=
  runDecrypt mode pad ivp s

/-- `DEC.RSVPAD`: `PAD = 3`, so R120 step 4 ends it unless step 1 or 2 does. -/
def execDecRsvPad (mode : BitVec 2) (ivp : Bool) (s : State) : Host.Outcome State Fault Refusal :=
  runDecrypt mode 3#2 ivp s

end Sys2Proof.Machine
end

