-- ==== Sys2Proof/Machine/Dispatch.lean ====
section
/-! DEFINITION. One arm for each instruction: `Exec` of 10_state.md R26. -/

namespace Sys2Proof.Machine

def exec (i : Instr) (s : State) : Host.Outcome State Fault Refusal :=
  match i with
  | .keysched => Sys2Proof.Machine.execKeysched s
  | .encblk => Sys2Proof.Machine.execEncblk s
  | .decblk => Sys2Proof.Machine.execDecblk s
  | .encEcbNone ivp => Sys2Proof.Machine.execEncEcbNone ivp s
  | .encEcbPkcs7 ivp => Sys2Proof.Machine.execEncEcbPkcs7 ivp s
  | .encEcbZero ivp => Sys2Proof.Machine.execEncEcbZero ivp s
  | .encCbcNone ivp => Sys2Proof.Machine.execEncCbcNone ivp s
  | .encCbcPkcs7 ivp => Sys2Proof.Machine.execEncCbcPkcs7 ivp s
  | .encCbcZero ivp => Sys2Proof.Machine.execEncCbcZero ivp s
  | .decEcbNone ivp => Sys2Proof.Machine.execDecEcbNone ivp s
  | .decEcbPkcs7 ivp => Sys2Proof.Machine.execDecEcbPkcs7 ivp s
  | .decEcbZero ivp => Sys2Proof.Machine.execDecEcbZero ivp s
  | .decCbcNone ivp => Sys2Proof.Machine.execDecCbcNone ivp s
  | .decCbcPkcs7 ivp => Sys2Proof.Machine.execDecCbcPkcs7 ivp s
  | .decCbcZero ivp => Sys2Proof.Machine.execDecCbcZero ivp s
  | .encRsvMode mode pad ivp => Sys2Proof.Machine.execEncRsvMode mode pad ivp s
  | .decRsvMode mode pad ivp => Sys2Proof.Machine.execDecRsvMode mode pad ivp s
  | .encRsvPad mode ivp => Sys2Proof.Machine.execEncRsvPad mode ivp s
  | .decRsvPad mode ivp => Sys2Proof.Machine.execDecRsvPad mode ivp s
  | .illegalOp5 hi => Sys2Proof.Machine.execIllegalOp5 hi s
  | .illegalOp6 hi => Sys2Proof.Machine.execIllegalOp6 hi s
  | .illegalOp7 hi => Sys2Proof.Machine.execIllegalOp7 hi s
  | .illegalKeyschedBit7 hi => Sys2Proof.Machine.execIllegalKeyschedBit7 hi s
  | .illegalKeyschedBit6 hi => Sys2Proof.Machine.execIllegalKeyschedBit6 hi s
  | .illegalKeyschedBit5 hi => Sys2Proof.Machine.execIllegalKeyschedBit5 hi s
  | .illegalKeyschedBit4 hi => Sys2Proof.Machine.execIllegalKeyschedBit4 hi s
  | .illegalKeyschedBit3 => Sys2Proof.Machine.execIllegalKeyschedBit3 s
  | .illegalEncblkBit7 hi => Sys2Proof.Machine.execIllegalEncblkBit7 hi s
  | .illegalEncblkBit6 hi => Sys2Proof.Machine.execIllegalEncblkBit6 hi s
  | .illegalEncblkBit5 hi => Sys2Proof.Machine.execIllegalEncblkBit5 hi s
  | .illegalEncblkBit4 hi => Sys2Proof.Machine.execIllegalEncblkBit4 hi s
  | .illegalEncblkBit3 => Sys2Proof.Machine.execIllegalEncblkBit3 s
  | .illegalDecblkBit7 hi => Sys2Proof.Machine.execIllegalDecblkBit7 hi s
  | .illegalDecblkBit6 hi => Sys2Proof.Machine.execIllegalDecblkBit6 hi s
  | .illegalDecblkBit5 hi => Sys2Proof.Machine.execIllegalDecblkBit5 hi s
  | .illegalDecblkBit4 hi => Sys2Proof.Machine.execIllegalDecblkBit4 hi s
  | .illegalDecblkBit3 => Sys2Proof.Machine.execIllegalDecblkBit3 s

end Sys2Proof.Machine
end

