-- ==== Sys2Proof/Machine/HostPort.lean ====
section
/-! DEFINITION. The host's actions on the engine: `issue` (10_state.md R25), reading STATUS and the
response (R27); the engine's turn (R26); and the descriptor a command word is tried with. -/

namespace Sys2Proof.Machine

/-- R25 `issue(d)`: in IDLE or DONE, with every field the command reads present. A word that
decodes to no command reads none and is accepted. -/
def issue (d : Descriptor) (s : State) : Host.Outcome State Fault Refusal :=
  match s.phase with
  | .busy => .refused .issueWhileBusy
  | .idle | .done =>
    match firstOverCap s.caps d with
    | some f => .refused (.overCapacity f)
    | none =>
      match firstAbsent d (fieldsRead (decode d.cmd)) with
      | some f => .refused (.fieldAbsent f)
      | none => .next (accept d s)

/-- The host takes the value of a read; the engine's state is as before (R27). -/
def giveHost (v : ReadValue) (s : State) : State := { s with host := { s.host with got := some v } }

/-- R21, R27: a response field is readable only in DONE and only when it holds a value. -/
def readResponse (f : ReadField) (v : Option ReadValue) (s : State) :
    Host.Outcome State Fault Refusal :=
  match s.phase with
  | .idle => .refused (.readOutsideDone f)
  | .busy => .refused (.readOutsideDone f)
  | .done =>
    match v with
    | none => .refused (.readNoValue f)
    | some v => .next (giveHost v s)

/-- R30, R34: a host read of `n` bytes of `OUT` or `BLKOUT`; an access past the end is a fault. -/
def readBytes (space : Space) (addr n : Nat) (s : State) : Host.Outcome State Fault Refusal :=
  match s.phase with
  | .idle => .refused (.readOutsideDone (.bytes space addr n))
  | .busy => .refused (.readOutsideDone (.bytes space addr n))
  | .done =>
    match spaceBytes s space with
    | none => .refused (.readNoValue (.bytes space addr n))
    | some _ =>
      match memRead s space addr n with
      | some b => .next (giveHost (.bytes b) s)
      | none => .fault (.outsideBuffer space addr n)

/-- R27: one host read. `STATUS` is readable in any phase. The latch and the working registers are
not the host's to read (R10, R23, R30, R159). -/
def hostRead (f : ReadField) (s : State) : Host.Outcome State Fault Refusal :=
  match f with
  | .status =>
    match s.status with
    | some v => .next (giveHost (.status v) s)
    | none => .refused (.readNoValue .status)
  | .err => readResponse .err (s.resp.err.map fun e => .err e.code) s
  | .olen => readResponse .olen (s.resp.olen.map .olen) s
  | .out => readResponse .out (s.resp.out.map .bytes) s
  | .blkout => readResponse .blkout (s.resp.blkout.map .block) s
  | .rkout => readResponse .rkout (s.resp.rkout.map .words) s
  | .bytes .out addr n => readBytes .out addr n s
  | .bytes .blkout addr n => readBytes .blkout addr n s
  | .bytes .key _ _ | .bytes .iv _ _ | .bytes .data _ _ | .bytes .block _ _ | .working _ =>
    .refused (.notHostReadable f)

/-- The host's schedule without its first action. -/
def State.tookTurn (s : State) (rest : List HostAction) : State :=
  { s with host := { s.host with pending := rest } }

/-- R26: in BUSY the engine completes the latched command. In IDLE and DONE "it does nothing until
the next `issue`" (R160). -/
def engineTurn (s : State) : Host.Outcome State Fault Refusal :=
  match s.phase with
  | .idle => .next s
  | .done => .next s
  | .busy =>
    match s.latch with
    | none => .refused .latchNoValue
    | some d => exec (decode d.cmd) s

/-- The operands `withFetchWord` supplies where the latch holds none (log 3). -/
def Descriptor.blank : Descriptor where
  cmd := 0
  key := some (List.replicate 16 0)
  iv := some (List.replicate 16 0)
  data := some []
  block := some (.replicate 16 0)
  rk := some (.replicate 32 0)

/-- The descriptor with every field it lacks taken from `blank`, and this command word. -/
def Descriptor.withCmd (d : Descriptor) (c : Byte) : Descriptor where
  cmd := c
  key := d.key <|> Descriptor.blank.key
  iv := d.iv <|> Descriptor.blank.iv
  data := d.data <|> Descriptor.blank.data
  block := d.block <|> Descriptor.blank.block
  rk := d.rk <|> Descriptor.blank.rk

end Sys2Proof.Machine
end

