-- ==== Sys2Proof/Machine/Step.lean ====
section
/-! DEFINITION. One step: the next host action, or the engine's turn (10_state.md R10, R16). -/

namespace Sys2Proof.Machine

/-- One step: the host's next action, or, when it waits or has none, the engine's turn. -/
def step (s : State) : Host.Outcome State Fault Refusal :=
  match s.host.pending with
  | [] => engineTurn s
  | .wait :: rest => engineTurn (s.tookTurn rest)
  | .issue d :: rest => issue d (s.tookTurn rest)
  | .read f :: rest => hostRead f (s.tookTurn rest)
  | .reset :: rest => .next (resetEngine (s.tookTurn rest))

/-- There is no fetch (R15): a command comes to run by an `issue` of its descriptor. This is the
state right after one, with the given word as `CMD`, and the engine's turn next (log 3). -/
def State.withFetchWord (s : State) (nbits w : Nat) : State :=
  { accept ((s.latch.getD Descriptor.blank).withCmd (BitVec.ofNat 8 (w % 2 ^ nbits))) s with
    host := { s.host with
      pending := match s.host.pending with
        | [] => []
        | a :: rest => .wait :: a :: rest } }

end Sys2Proof.Machine
end

