-- ==== Sys2Proof/Machine/Instances.lean ====
section
/-! DEFINITION. Several engine instances side by side (60_exceptions.md R158, log 1). Each has its own
PHASE, LATCH, working registers and response; no instance can reach another. -/

namespace Sys2Proof.Machine

/-- R158: `NINST` instances right after reset. There is no system of 0 instances (R5). -/
def systemReset (ninst : Nat) (_ : Config.ninstLegal ninst = true) : List State :=
  List.replicate ninst State.reset

/-- R5's constraints on a system: `NINST` is at least 1 and every instance's capacities are legal. -/
def systemLegal (sys : List State) : Bool :=
  Config.ninstLegal sys.length && sys.all fun s => s.caps.legal

/-- R158: instance `n` takes a step; a stop of one instance is reported as that instance's. -/
def systemStep (sys : List State) (n : Fin sys.length) :
    Host.Outcome (List State) Fault Refusal :=
  match step sys[n] with
  | .next t => .next (sys.set n t)
  | .fault f => .fault f
  | .refused r => .refused r

end Sys2Proof.Machine
end

