-- ==== Sys2Proof/Machine/Reference.lean ====
section
/-! DEFINITION. The units and `Exec` as functions of values alone, with no working registers: what the
spec's rules say each unit returns (00_scope.md R9, "a unit is a pure function"), and the response
each command gives (10_state.md R26). Statements name these; the machine runs the registers. -/

namespace Sys2Proof.Machine

/-- R92, R100: the sequence with `x[i+4] = x[i] ^ t(x[i+1] ^ x[i+2] ^ x[i+3] ^ r[i])`. -/
def wordSeq (t : Word → Word) (x0 x1 x2 x3 : Word) (r : Nat → Word) : Nat → Word
  | 0 => x0
  | 1 => x1
  | 2 => x2
  | 3 => x3
  | n + 4 =>
    wordSeq t x0 x1 x2 x3 r n ^^^
      t (wordSeq t x0 x1 x2 x3 r (n + 1) ^^^ wordSeq t x0 x1 x2 x3 r (n + 2) ^^^
        wordSeq t x0 x1 x2 x3 r (n + 3) ^^^ r n)

/-- A round-indexed word; the rounds are 0 to 31 and no other index is ever asked for. -/
def roundWord (v : Schedule) (n : Nat) : Word := if h : n < 32 then v[n] else 0

/-- R90 to R92: the words `K[0], K[1], ...` of a key. -/
def keySeq (rom : Rom) (key : Block) : Nat → Word :=
  wordSeq (tKey rom) (blockWord key 0 ^^^ rom.fk[0]) (blockWord key 1 ^^^ rom.fk[1])
    (blockWord key 2 ^^^ rom.fk[2]) (blockWord key 3 ^^^ rom.fk[3]) (roundWord rom.ck)

/-- R92 `KEYEXP(key)`: `rk[i] = K[i+4]`. -/
def keyScheduleOf (rom : Rom) (key : Block) : Schedule :=
  .ofFn fun i => keySeq rom key (i.val + 4)

/-- R100: the words `X[0], X[1], ...` of a block under the round keys `r[0..31]`. -/
def cryptSeq (rom : Rom) (b : Block) (r : Schedule) : Nat → Word :=
  wordSeq (tData rom) (blockWord b 0) (blockWord b 1) (blockWord b 2) (blockWord b 3) (roundWord r)

/-- R100 `CRYPT(B, r)`: `X[35], X[34], X[33], X[32]`, each big-endian. -/
def cryptOf (rom : Rom) (b : Block) (r : Schedule) : Block :=
  blockOfWords (cryptSeq rom b r 35) (cryptSeq rom b r 34) (cryptSeq rom b r 33)
    (cryptSeq rom b r 32)

/-- R101, R102: the round keys in the order a command uses them. -/
def KeyOrder.schedule (order : KeyOrder) (ks : Schedule) : Schedule :=
  .ofFn fun i => ks[(order.index i).val]

/-- 45_modes.md `ENC1(B, rk)`. -/
def encBlockOf (rom : Rom) (ks : Schedule) (b : Block) : Block :=
  cryptOf rom b (KeyOrder.forward.schedule ks)

/-- 45_modes.md `DEC1(B, rk)`. -/
def decBlockOf (rom : Rom) (ks : Schedule) (b : Block) : Block :=
  cryptOf rom b (KeyOrder.reverse.schedule ks)

/-- R33: the blocks of a byte sequence, in order. -/
def blocksOf (b : List Byte) : List Block := (List.finRange (b.length / 16)).map (blockAt b)

/-- R33: blocks back to bytes, "concatenated in the same order". -/
def bytesOf (bs : List Block) : List Byte := bs.flatMap (·.toList)

/-- R123: the ciphertext blocks of CBC. -/
def cbcEncBlocks (rom : Rom) (ks : Schedule) : Block → List Block → List Block
  | _, [] => []
  | prev, b :: bs =>
    encBlockOf rom ks (xor16 b prev) ::
      cbcEncBlocks rom ks (encBlockOf rom ks (xor16 b prev)) bs

/-- R124: the plaintext blocks of CBC. -/
def cbcDecBlocks (rom : Rom) (ks : Schedule) : Block → List Block → List Block
  | _, [] => []
  | prev, c :: cs => xor16 (decBlockOf rom ks c) prev :: cbcDecBlocks rom ks c cs

/-- R121, R123: the mode controller of `ENCRYPT`. -/
def encChainOf (rom : Rom) (ks : Schedule) (chain : Chain) (p : List Byte) : List Byte :=
  match chain with
  | .ecb => bytesOf ((blocksOf p).map (encBlockOf rom ks))
  | .cbc iv => bytesOf (cbcEncBlocks rom ks iv (blocksOf p))

/-- R122, R124: the mode controller of `DECRYPT`. -/
def decChainOf (rom : Rom) (ks : Schedule) (chain : Chain) (c : List Byte) : List Byte :=
  match chain with
  | .ecb => bytesOf ((blocksOf c).map (decBlockOf rom ks))
  | .cbc iv => bytesOf (cbcDecBlocks rom ks iv (blocksOf c))

/-- R116 `PAD.ADD(pad, b)`. -/
def padAddOf (pad : Padding) (b : List Byte) : Except ErrorKind (List Byte) :=
  match pad with
  | .none => if b.length % 16 = 0 then .ok b else .error .invalidInputLength
  | .pkcs7 => .ok (pkcs7Add b)
  | .zero => .ok (zeroAdd b)

/-- R116 `PAD.REMOVE(pad, b)`. -/
def padRemoveOf (pad : Padding) (b : List Byte) : Except ErrorKind (List Byte) :=
  match pad with
  | .none => .ok b
  | .pkcs7 =>
    match pkcs7Remove b with
    | some m => .ok m
    | none => .error .invalidPadding
  | .zero => .ok (zeroRemove b)

/-- R125: the ciphertext, or the error, of `ENCRYPT`. -/
def encryptOf (rom : Rom) (mode pad : BitVec 2) (ops : MsgOperands) :
    Except ErrorKind (List Byte) := do
  let sel ← validate mode pad ops
  let p ← padAddOf sel.pad ops.data
  .ok (encChainOf rom (keyScheduleOf rom sel.key) sel.chain p)

/-- R126: the plaintext, or the error, of `DECRYPT`. -/
def decryptOf (rom : Rom) (mode pad : BitVec 2) (ops : MsgOperands) :
    Except ErrorKind (List Byte) := do
  let sel ← validate mode pad ops
  if ops.data.length % 16 = 0 then
    padRemoveOf sel.pad (decChainOf rom (keyScheduleOf rom sel.key) sel.chain ops.data)
  else .error .invalidInputLength

/-- R19: the response of a successful `KEYSCHED`. -/
def Response.schedule (ks : Schedule) : Response :=
  { err := some .ok, rkout := some ks, blkout := none, out := none, olen := some 0 }

/-- R19: the response of `ENCBLK` and `DECBLK`. -/
def Response.ofBlock (b : Block) : Response :=
  { err := some .ok, rkout := none, blkout := some b, out := none, olen := some 0 }

/-- R19: the response of a successful `ENCRYPT` or `DECRYPT`. -/
def Response.message (b : List Byte) : Response :=
  { err := some .ok, rkout := none, blkout := none, out := some b, olen := some b.length }

/-- R19, R148: the response of an `ENCRYPT` or `DECRYPT` that ends this way. -/
def messageResponse : Except ErrorKind (List Byte) → Response
  | .ok b => .message b
  | .error e => .failed e

/-- R93: the response of `KEYSCHED`. -/
def keyschedResponse (rom : Rom) (key : List Byte) : Response :=
  match asBlock key with
  | some k => .schedule (keyScheduleOf rom k)
  | none => .failed .invalidKeyLength

/-- R125 as a function of the descriptor. -/
def encryptResponse (rom : Rom) (mode pad : BitVec 2) (ivp : Bool) (d : Descriptor) :
    Option Response :=
  (msgOperands mode ivp d).toOption.map fun ops =>
    messageResponse (encryptOf rom mode pad ops)

/-- R126 as a function of the descriptor. -/
def decryptResponse (rom : Rom) (mode pad : BitVec 2) (ivp : Bool) (d : Descriptor) :
    Option Response :=
  (msgOperands mode ivp d).toOption.map fun ops =>
    messageResponse (decryptOf rom mode pad ops)

/-- The kind of command a word is: its format (R55), or none (R57). -/
inductive Kind where
  | keysched
  | block (order : KeyOrder)
  | encrypt (mode pad : BitVec 2) (ivp : Bool)
  | decrypt (mode pad : BitVec 2) (ivp : Bool)
  | illegal
  deriving DecidableEq, Repr

/-- R51, R57: the command of each row, with the fields of its word. -/
def kind : Instr → Kind
  | .keysched => .keysched
  | .encblk => .block .forward
  | .decblk => .block .reverse
  | .encEcbNone ivp => .encrypt 0#2 0#2 ivp
  | .encEcbPkcs7 ivp => .encrypt 0#2 1#2 ivp
  | .encEcbZero ivp => .encrypt 0#2 2#2 ivp
  | .encCbcNone ivp => .encrypt 1#2 0#2 ivp
  | .encCbcPkcs7 ivp => .encrypt 1#2 1#2 ivp
  | .encCbcZero ivp => .encrypt 1#2 2#2 ivp
  | .decEcbNone ivp => .decrypt 0#2 0#2 ivp
  | .decEcbPkcs7 ivp => .decrypt 0#2 1#2 ivp
  | .decEcbZero ivp => .decrypt 0#2 2#2 ivp
  | .decCbcNone ivp => .decrypt 1#2 0#2 ivp
  | .decCbcPkcs7 ivp => .decrypt 1#2 1#2 ivp
  | .decCbcZero ivp => .decrypt 1#2 2#2 ivp
  | .encRsvMode mode pad ivp => .encrypt mode pad ivp
  | .decRsvMode mode pad ivp => .decrypt mode pad ivp
  | .encRsvPad mode ivp => .encrypt mode 3#2 ivp
  | .decRsvPad mode ivp => .decrypt mode 3#2 ivp
  | .illegalOp5 _ | .illegalOp6 _ | .illegalOp7 _
  | .illegalKeyschedBit7 _ | .illegalKeyschedBit6 _ | .illegalKeyschedBit5 _
  | .illegalKeyschedBit4 _ | .illegalKeyschedBit3
  | .illegalEncblkBit7 _ | .illegalEncblkBit6 _ | .illegalEncblkBit5 _
  | .illegalEncblkBit4 _ | .illegalEncblkBit3
  | .illegalDecblkBit7 _ | .illegalDecblkBit6 _ | .illegalDecblkBit5 _
  | .illegalDecblkBit4 _ | .illegalDecblkBit3 => .illegal

/-- R26 `Exec`: "the function from a descriptor to a response"; `none` when the descriptor lacks a
field the command reads, which no `issue` accepts (R25). -/
def responseOf (rom : Rom) (i : Instr) (d : Descriptor) : Option Response :=
  match kind i with
  | .keysched => (keyOperand d).toOption.map (keyschedResponse rom)
  | .block order => (blockOperands d).toOption.map fun o =>
      .ofBlock (cryptOf rom o.1 (order.schedule o.2))
  | .encrypt mode pad ivp => encryptResponse rom mode pad ivp d
  | .decrypt mode pad ivp => decryptResponse rom mode pad ivp d
  | .illegal => some (.failed .illegalCommand)

end Sys2Proof.Machine
end

