-- ==== Sys2Proof/Machine/Surface.lean ====
section
/-! DEFINITION. The five functions of the source's surface (30_encoding.md R51, R60, R61) as the one
command each stands for: its instruction and the descriptor the host issues. -/

namespace Sys2Proof.Machine

/-- The `ENC` row of a mode and a padding that exist (R59). -/
def encInstr (cbc : Bool) (pad : Padding) (ivp : Bool) : Instr :=
  match cbc, pad with
  | false, .none => .encEcbNone ivp
  | false, .pkcs7 => .encEcbPkcs7 ivp
  | false, .zero => .encEcbZero ivp
  | true, .none => .encCbcNone ivp
  | true, .pkcs7 => .encCbcPkcs7 ivp
  | true, .zero => .encCbcZero ivp

/-- The `DEC` row of a mode and a padding that exist (R59). -/
def decInstr (cbc : Bool) (pad : Padding) (ivp : Bool) : Instr :=
  match cbc, pad with
  | false, .none => .decEcbNone ivp
  | false, .pkcs7 => .decEcbPkcs7 ivp
  | false, .zero => .decEcbZero ivp
  | true, .none => .decCbcNone ivp
  | true, .pkcs7 => .decCbcPkcs7 ivp
  | true, .zero => .decCbcZero ivp

/-- R51, R60: a call of one of the five functions; `iv` is left out or given. -/
inductive Call where
  | keySchedule (key : List Byte)
  | encryptBlock (block : Block) (roundKeys : Schedule)
  | decryptBlock (block : Block) (roundKeys : Schedule)
  | encrypt (plaintext key : List Byte) (cbc : Bool) (iv : Option (List Byte)) (pad : Padding)
  | decrypt (ciphertext key : List Byte) (cbc : Bool) (iv : Option (List Byte)) (pad : Padding)
  deriving DecidableEq, Repr

/-- R61: the one command a call expands to; giving `iv` sets `IVP = 1`, leaving it out sets 0. -/
def Call.instr : Call → Instr
  | .keySchedule _ => .keysched
  | .encryptBlock _ _ => .encblk
  | .decryptBlock _ _ => .decblk
  | .encrypt _ _ cbc iv pad => encInstr cbc pad iv.isSome
  | .decrypt _ _ cbc iv pad => decInstr cbc pad iv.isSome

/-- R60, R61: the descriptor of a call: its command word and "the same operands". -/
def Call.descriptor (c : Call) : Descriptor :=
  match c with
  | .keySchedule key => ⟨encodeWord c.instr, some key, none, none, none, none⟩
  | .encryptBlock b rk => ⟨encodeWord c.instr, none, none, none, some b, some rk⟩
  | .decryptBlock b rk => ⟨encodeWord c.instr, none, none, none, some b, some rk⟩
  | .encrypt data key _ iv _ => ⟨encodeWord c.instr, some key, iv, some data, none, none⟩
  | .decrypt data key _ iv _ => ⟨encodeWord c.instr, some key, iv, some data, none, none⟩

/-- R60: one line of a host program: the issue of a call, and the wait for its response. -/
def Call.actions (c : Call) : List HostAction := [.issue c.descriptor, .wait]

end Sys2Proof.Machine
end

