-- ==== Sys2Proof/Safety.lean ====
section
/-! DEFINITION. The terms statements are written in: when a command is ready to complete, what a
response may look like, and the invariant of a run. -/

namespace Sys2Proof.Machine

/-- R25, R26: `d` is latched in BUSY and supplies every field the command `i` reads. -/
def Ready (i : Instr) (d : Descriptor) (s : State) : Prop :=
  s.phase = .busy ∧ s.latch = some d ∧ firstAbsent d (fieldsRead i) = none

/-- BUSY with these `MSG` operands latched (R55); `iv` is the IV field, present or not. -/
def RunsMessage (s : State) (key : List Byte) (iv : Option (List Byte)) (data : List Byte) : Prop :=
  s.phase = .busy ∧
    ∃ d, s.latch = some d ∧ d.key = some key ∧ d.iv = iv ∧ d.data = some data

/-- BUSY with these `BLK` operands latched (R55). -/
def RunsBlock (s : State) (b : Block) (ks : Schedule) : Prop :=
  s.phase = .busy ∧ ∃ d, s.latch = some d ∧ d.block = some b ∧ d.rk = some ks

/-- BUSY with this `KS` operand latched (R55). -/
def RunsKey (s : State) (key : List Byte) : Prop :=
  s.phase = .busy ∧ ∃ d, s.latch = some d ∧ d.key = some key

/-- R17: two descriptors hold the same in one field. -/
def sameField (d d' : Descriptor) : DescField → Prop
  | .key => d.key = d'.key
  | .iv => d.iv = d'.iv
  | .data => d.data = d'.data
  | .block => d.block = d'.block
  | .rk => d.rk = d'.rk

/-- R19, R148: what a response held in DONE may look like: on `OK` exactly one output field holds a
value and `OLEN` is `len(OUT)` or 0; on an error none does and `OLEN` is 0. -/
def Response.wellShaped (r : Response) : Bool :=
  match r.err, r.rkout, r.blkout, r.out with
  | some .ok, some _, none, none => r.olen == some 0
  | some .ok, none, some _, none => r.olen == some 0
  | some .ok, none, none, some b => r.olen == some b.length
  | some (.error _), none, none, none => r.olen == some 0
  | _, _, _, _ => false

/-- R5, R19: `OUT` fits the output of the machine, `0 <= OLEN <= MAXLEN + 16`. -/
def Response.fits (caps : Config.Capacities) (r : Response) : Bool :=
  match r.out, caps.maxLen with
  | some b, some m => decide (b.length ≤ m + 16)
  | _, _ => true

/-- R30, log 9: the canonical form of the byte spaces. Each space is one dense sequence; `BLOCK` and
`BLKOUT` have 16 bytes by type, and `OLEN` is the length of an `OUT` that holds a value. -/
def Memory.wf (s : State) : Bool :=
  match s.resp.out with
  | none => true
  | some b => s.resp.olen == some b.length

/-- What holds in each phase (R16, R18, R19, R22). -/
def PhaseInv (s : State) : Prop :=
  match s.phase with
  | .idle => s.latch = none ∧ s.resp = State.reset.resp
  | .busy => s.resp = .noValue ∧ ∃ d, s.latch = some d ∧
      firstAbsent d (fieldsRead (decode d.cmd)) = none ∧ firstOverCap s.caps d = none
  | .done => s.latch = none ∧ s.resp.wellShaped = true ∧ s.resp.fits s.caps = true

/-- The invariant of every run: the tables are the constants (R11, R178), the capacities are legal
(R5), no working register holds a value between steps (R22, R26), and the phase's own part. -/
structure Inv (s : State) : Prop where
  rom : s.rom = romTables
  caps : s.caps.legal = true
  work : s.work = .noValue
  phase : PhaseInv s

end Sys2Proof.Machine
end

