-- ==== Sys2Proof/Certificates/Slice0/Obligations.lean ====
section
/-! DEFINITION. The statements about the SM4 engine core, from the numbered rules of spec/. Rules that
spec/ marks `[decision: ...]` are the spec's own choices and are cited as rules; a choice of this
model is named by its log entry. -/

open Sys2Proof Sys2Proof.Machine

/-! ### Command words -/

/-- Decoding the bytes of any well-formed instruction, whatever follows them, gives it back with
every operand, and leaves what follows (30_encoding.md R50, R57, R58, R59). -/
def Obligations.DecodeUndoesEncode : Prop :=
  ∀ i : Instr, i.wf = true → ∀ rest : List Byte,
    decodeBytes (encode i ++ rest) = .ok (i, rest)

/-- Every one of the 256 words decodes to a well-formed instruction that encodes to it (R58). -/
def Obligations.EncodeUndoesDecode : Prop :=
  ∀ c : Byte, (decode c).wf = true ∧ encode (decode c) = [c]

/-- Words written out from the table of R59 and the cases of R57 decode to what they stand for. -/
def Obligations.SpecWordsDecode : Prop :=
  decode 0x00 = .keysched ∧ decode 0x01 = .encblk ∧ decode 0x02 = .decblk ∧
  decode 0x2B = .encCbcPkcs7 false ∧ decode 0xC3 = .encEcbZero true ∧
  decode 0x8C = .decCbcNone true ∧ decode 0x24 = .decEcbPkcs7 false ∧
  decode 0x33 = .encRsvMode 2 1 false ∧ decode 0xEB = .encRsvPad 1 true ∧
  decode 0x05 = .illegalOp5 0 ∧ decode 0x08 = .illegalKeyschedBit3 ∧
  decode 0x81 = .illegalEncblkBit7 0x10

/-- R17, R55: which descriptor fields the command of a word reads, by `OP`, `MODE` and `IVP`; a word
that decodes to no command reads none (R25). -/
def Obligations.FieldsReadByWord : Prop :=
  ∀ c : Byte,
    let op := c.toNat % 8
    let mode := c.toNat / 8 % 4
    let ivp := c.toNat / 128
    let f := fieldsRead (decode c)
    (.key ∈ f ↔ c = 0 ∨ op = 3 ∨ op = 4) ∧
    (.data ∈ f ↔ op = 3 ∨ op = 4) ∧
    (.iv ∈ f ↔ (op = 3 ∨ op = 4) ∧ mode = 1 ∧ ivp = 1) ∧
    (.block ∈ f ↔ c = 1 ∨ c = 2) ∧
    (.rk ∈ f ↔ c = 1 ∨ c = 2)

/-- R61, R60, R51: a call of one of the five functions is one command with the same operands:
`keySchedule` is KEYSCHED, `encryptBlock` ENCBLK, `decryptBlock` DECBLK, `encrypt` and `decrypt` the
word of `OP` 3 or 4 with the `MODE` and `PAD` of the call and `IVP` set exactly when `iv` is given; the
descriptor holds the call's own operands and an `issue` finds every field it needs. -/
def Obligations.CallsAreOneCommand : Prop :=
  (∀ key : List Byte,
    let k := (Call.keySchedule key).descriptor
    decode k.cmd = .keysched ∧ k.key = some key) ∧
  (∀ (b : Block) (ks : Schedule),
    let e := (Call.encryptBlock b ks).descriptor
    let d := (Call.decryptBlock b ks).descriptor
    decode e.cmd = .encblk ∧ decode d.cmd = .decblk ∧
    e.block = some b ∧ e.rk = some ks ∧ d.block = some b ∧ d.rk = some ks) ∧
  (∀ (data key : List Byte) (cbc : Bool) (iv : Option (List Byte)) (pad : Padding),
    let e := (Call.encrypt data key cbc iv pad).descriptor
    let d := (Call.decrypt data key cbc iv pad).descriptor
    let padBits : BitVec 2 := match pad with | .none => 0 | .pkcs7 => 1 | .zero => 2
    opField e.cmd = 3 ∧ modeField e.cmd = (if cbc then 1 else 0) ∧ padField e.cmd = padBits ∧
    ivpField e.cmd = iv.isSome ∧
    opField d.cmd = 4 ∧ modeField d.cmd = (if cbc then 1 else 0) ∧ padField d.cmd = padBits ∧
    ivpField d.cmd = iv.isSome ∧
    decode e.cmd = encInstr cbc pad iv.isSome ∧ decode d.cmd = decInstr cbc pad iv.isSome ∧
    e.key = some key ∧ e.iv = iv ∧ e.data = some data ∧
    d.key = some key ∧ d.iv = iv ∧ d.data = some data) ∧
  ∀ c : Call, decode c.descriptor.cmd = c.instr ∧
    ∀ f ∈ fieldsRead c.instr, c.descriptor.supplies f = true

/-! ### The step, the host and the phases -/

/-- R26: in BUSY, when the host has no action or waits, a step runs the latched command word; the
host's wait is used up and nothing else is done around it. -/
def Obligations.StepRunsLatchedCommand : Prop :=
  ∀ (s : State) (d : Descriptor), s.phase = .busy → s.latch = some d →
    (s.host.pending = [] → step s = exec (decode d.cmd) s) ∧
    ∀ rest, s.host.pending = .wait :: rest → step s = exec (decode d.cmd) (s.tookTurn rest)

/-- R160, R171: in IDLE and DONE the engine does nothing while the host issues nothing (log 13). -/
def Obligations.EngineWaitsForIssue : Prop :=
  ∀ s : State, s.phase ≠ .busy →
    (s.host.pending = [] → step s = .next s) ∧
    ∀ rest, s.host.pending = .wait :: rest → step s = .next (s.tookTurn rest)

/-- R25: in IDLE or DONE a descriptor within the capacities (R5) is accepted exactly when it holds
every field its command reads; then it is latched, every response field is invalidated and the
engine is BUSY, and nothing else changes. -/
def Obligations.IssueLatchesDescriptor : Prop :=
  ∀ (s : State) (d : Descriptor) (rest : List HostAction),
    s.phase ≠ .busy → s.host.pending = .issue d :: rest → firstOverCap s.caps d = none →
    ((∀ f ∈ fieldsRead (decode d.cmd), d.supplies f = true) →
      step s = .next { s with
        phase := .busy
        latch := some d
        resp := ⟨none, none, none, none, none⟩
        host := { s.host with pending := rest } }) ∧
    ((∃ f ∈ fieldsRead (decode d.cmd), d.supplies f = false) →
      ∃ f ∈ fieldsRead (decode d.cmd), d.supplies f = false ∧
        step s = .refused (.fieldAbsent f))

/-- R25, R173: an `issue` in BUSY has no step. -/
def Obligations.IssueInBusyHasNoStep : Prop :=
  ∀ (s : State) (d : Descriptor) (rest : List HostAction),
    s.phase = .busy → s.host.pending = .issue d :: rest → step s = .refused .issueWhileBusy

/-- R170: a reset, in any phase, gives the state of R24 and discards a command in flight; the
capacities and the host side stay (log 14). -/
def Obligations.ResetDiscardsCommand : Prop :=
  ∀ (s : State) (rest : List HostAction), s.host.pending = .reset :: rest →
    step s = .next { State.reset with caps := s.caps, host := { s.host with pending := rest } }

/-- R24: the values after reset. -/
def Obligations.ResetValues : Prop :=
  State.reset.phase = .idle ∧ State.reset.status = some 0x00 ∧
  State.reset.resp = ⟨some .ok, none, none, none, some 0⟩ ∧ State.reset.latch = none ∧
  (∀ m (h : m < 36), State.reset.work.K[m] = none) ∧
  (∀ m (h : m < 32), State.reset.work.rk[m] = none) ∧
  (∀ m (h : m < 36), State.reset.work.X[m] = none) ∧
  State.reset.work.PREV = none ∧ State.reset.work.P = none ∧ State.reset.work.padLen = none ∧
  State.reset.work.i = none ∧ State.reset.work.j = none ∧
  State.reset.rom.sbox.toList = sboxBytes ∧ State.reset.rom.fk.toList = fkWords ∧
  State.reset.rom.ck.toList = ckWords

/-- R20, R16: `STATUS` is `0x00` in IDLE, `0x10` in BUSY and `0x20 + ERR` in DONE; R56, R140: the
codes of `ERR`. -/
def Obligations.StatusByPhase : Prop :=
  (∀ s : State,
    (s.phase = .idle → s.status = some 0x00) ∧ (s.phase = .busy → s.status = some 0x10) ∧
    ∀ e, s.phase = .done → s.resp.err = some e →
      s.status = some (0x20 + (e.code.setWidth 8))) ∧
  Err.ok.code = 0 ∧ (Err.error .invalidKeyLength).code = 1 ∧
  (Err.error .invalidIVLength).code = 2 ∧ (Err.error .invalidInputLength).code = 3 ∧
  (Err.error .invalidPadding).code = 4 ∧ (Err.error .unsupportedMode).code = 5 ∧
  (Err.error .unsupportedPadding).code = 6 ∧ (Err.error .illegalCommand).code = 7

/-- R27, R21: in every phase a read of `STATUS` answers its value whenever it has one (R20 gives it
one in every phase; it has none only in DONE without `ERR`, log 22); every other field is readable
only in DONE; a read changes nothing but the value the host got, and of the working registers and the
latched spaces nothing can be read (R23, R30). A read without an answer is a refusal (log 12). -/
def Obligations.ReadsOnlyInDone : Prop :=
  ∀ (s : State) (f : ReadField) (rest : List HostAction), s.host.pending = .read f :: rest →
    (∀ t, step s = .next t →
      (f = .status ∨ s.phase = .done) ∧ ∃ v, t = { s with host := ⟨rest, some v⟩ }) ∧
    (∀ v, f = .status → s.status = some v →
      step s = .next { s with host := ⟨rest, some (.status v)⟩ }) ∧
    (f ≠ .status → s.phase ≠ .done → ∃ r, step s = .refused r) ∧
    (∀ r, f = .working r → step s = .refused (.notHostReadable f)) ∧
    ∀ sp addr n, f = .bytes sp addr n → sp ≠ .out → sp ≠ .blkout →
      step s = .refused (.notHostReadable f)

/-- R19, R21, R27: in DONE a read gives the field's value when it holds one, and is refused when it
holds none. -/
def Obligations.DoneReadsReturnTheResponse : Prop :=
  ∀ (s : State) (f : ReadField) (rest : List HostAction),
    s.host.pending = .read f :: rest → s.phase = .done →
    let read (v : Option ReadValue) : Prop := step s = match v with
      | some v => .next { s with host := ⟨rest, some v⟩ }
      | none => .refused (.readNoValue f)
    (f = .err → read (s.resp.err.map fun e => .err e.code)) ∧
    (f = .olen → read (s.resp.olen.map .olen)) ∧
    (f = .out → read (s.resp.out.map .bytes)) ∧
    (f = .blkout → read (s.resp.blkout.map .block)) ∧
    (f = .rkout → read (s.resp.rkout.map .words))

/-- R30, R34: in DONE a host read of `n` bytes of `OUT` or `BLKOUT` at `addr` gives exactly the bytes at
those offsets when they lie in the space, and is refused when the space holds no value (R21, log 12).
That the host may read a part of `OUT` or `BLKOUT` is the model's reading (log 25). R34 leaves a read past the end undefined; that it is the fault `outsideBuffer` is the
model's choice (log 9). -/
def Obligations.ByteReadsOfOutput : Prop :=
  (∀ (s : State) (b : List Byte) (addr n : Nat) (rest : List HostAction),
    s.host.pending = .read (.bytes .out addr n) :: rest → s.phase = .done → s.resp.out = some b →
    (addr + n ≤ b.length → ∃ v : List Byte,
      v.length = n ∧ (∀ k, k < n → v[k]? = b[addr + k]?) ∧
      step s = .next { s with host := ⟨rest, some (.bytes v)⟩ }) ∧
    (b.length < addr + n → step s = .fault (.outsideBuffer .out addr n))) ∧
  (∀ (s : State) (b : Block) (addr n : Nat) (rest : List HostAction),
    s.host.pending = .read (.bytes .blkout addr n) :: rest → s.phase = .done →
    s.resp.blkout = some b →
    (addr + n ≤ 16 → ∃ v : List Byte,
      v.length = n ∧ (∀ k, k < n → v[k]? = b.toList[addr + k]?) ∧
      step s = .next { s with host := ⟨rest, some (.bytes v)⟩ }) ∧
    (16 < addr + n → step s = .fault (.outsideBuffer .blkout addr n))) ∧
  ∀ (s : State) (addr n : Nat) (rest : List HostAction), s.phase = .done →
    (s.host.pending = .read (.bytes .out addr n) :: rest → s.resp.out = none →
      step s = .refused (.readNoValue (.bytes .out addr n))) ∧
    (s.host.pending = .read (.bytes .blkout addr n) :: rest → s.resp.blkout = none →
      step s = .refused (.readNoValue (.bytes .blkout addr n)))

/-- R35: `MemWrite(OUT, addr, n, v)` where `OUT` already reaches `addr`, and `MemWrite(BLKOUT, addr,
n, v)` within a `BLKOUT` that holds a value or over the whole of one that holds none, set the bytes at
`addr .. addr+n-1` to `v` and leave every other byte and every other response field. That every other
write is a stop outside the space is the model's choice (log 24). -/
def Obligations.MemWriteSetsTheBytes : Prop :=
  (∀ (r : Response) (addr : Nat) (v : List Byte),
    (addr ≤ (r.out.getD []).length →
      ∃ b, memWrite .out addr v r = .ok { r with out := some b } ∧
        (∀ k, k < v.length → b[addr + k]? = v[k]?) ∧
        ∀ a, a < addr ∨ addr + v.length ≤ a → b[a]? = (r.out.getD [])[a]?) ∧
    ((r.out.getD []).length < addr →
      memWrite .out addr v r = .error (.outside .out addr v.length))) ∧
  (∀ (r : Response) (b : Block) (addr : Nat) (v : List Byte), r.blkout = some b →
    (addr + v.length ≤ 16 →
      ∃ b' : Block, memWrite .blkout addr v r = .ok { r with blkout := some b' } ∧
        (∀ k, k < v.length → b'.toList[addr + k]? = v[k]?) ∧
        ∀ a, a < addr ∨ addr + v.length ≤ a → b'.toList[a]? = b.toList[a]?) ∧
    (16 < addr + v.length →
      memWrite .blkout addr v r = .error (.outside .blkout addr v.length))) ∧
  ∀ (r : Response) (addr : Nat) (v : List Byte), r.blkout = none →
    (addr = 0 ∧ v.length = 16 →
      ∃ b : Block, memWrite .blkout addr v r = .ok { r with blkout := some b } ∧ b.toList = v) ∧
    (addr ≠ 0 ∨ v.length ≠ 16 →
      memWrite .blkout addr v r = .error (.outside .blkout addr v.length))

/-! ### Byte order, tables and primitives -/

/-- R7, R32: `BE32` puts the first byte highest, and `BYTES32` undoes it. -/
def Obligations.BigEndianConversions : Prop :=
  (∀ b0 b1 b2 b3 : Byte, (be32 b0 b1 b2 b3).toNat =
    b0.toNat * 2 ^ 24 + b1.toNat * 2 ^ 16 + b2.toNat * 2 ^ 8 + b3.toNat) ∧
  (∀ w : Word, be32 (wordByte w 0) (wordByte w 1) (wordByte w 2) (wordByte w 3) = w) ∧
  (∀ w0 w1 w2 w3 : Word,
    blockWord (blockOfWords w0 w1 w2 w3) 0 = w0 ∧ blockWord (blockOfWords w0 w1 w2 w3) 1 = w1 ∧
    blockWord (blockOfWords w0 w1 w2 w3) 2 = w2 ∧ blockWord (blockOfWords w0 w1 w2 w3) 3 = w3) ∧
  ∀ b : Block, blockOfWords (blockWord b 0) (blockWord b 1) (blockWord b 2) (blockWord b 3) = b

/-- R33: block `j` is `b[16j .. 16j+15]`, and the blocks of a sequence whose length is a multiple of
16, in order, make it up. -/
def Obligations.BlocksMakeUpTheBuffer : Prop :=
  (∀ (b : List Byte) (j : Fin (b.length / 16)) (k : Nat) (h : k < 16),
    some (blockAt b j)[k] = b[16 * j.val + k]?) ∧
  ∀ b : List Byte, b.length % 16 = 0 → bytesOf (blocksOf b) = b

/-- R80: bit `k` of `x` becomes bit `(k + n) mod 32` of `ROTL32(x, n)`. -/
def Obligations.RotationMovesBits : Prop :=
  ∀ (x : Word) (n : Fin 32) (k : Nat), k < 32 →
    (rotl32 x n).getLsbD ((k + n.val) % 32) = x.getLsbD k

/-- R81: `TAU` substitutes each byte in its own place; with an S-box that is injective, as R71 says
the table is, it is a bijection on words, which R81 marks as derived from R81 and R71. -/
def Obligations.TauSubstitutesBytes : Prop :=
  (∀ (rom : Rom) (w : Word) (k : Fin 4),
    wordByte (tau rom w) k = rom.sbox[(wordByte w k).toNat]'(wordByte w k).isLt) ∧
  ∀ rom : Rom, (∀ a b : Byte, sboxAt rom a = sboxAt rom b → a = b) →
    Function.Bijective (tau rom)

/-- R71: `SBOX` is a permutation of 0 .. 255 with the one fixed point `0xAB` and no entry that is
the complement of its index. -/
def Obligations.SboxIsPermutation : Prop :=
  (∀ v : Byte, ∃ b : Byte, sboxAt romTables b = v) ∧
  (∀ b : Byte, sboxAt romTables b = b ↔ b = 0xAB) ∧
  (∀ b : Byte, sboxAt romTables b ≠ b ^^^ 0xFF) ∧
  sboxAt romTables 0x00 = 0xD6 ∧ sboxAt romTables 0xFF = 0x48 ∧
  sboxAt romTables 0x71 = 0x00 ∧ sboxAt romTables 0xB9 = 0xFF

/-- R73, R74: byte `j` of `CK[i]` is `((4i+j) * 7) mod 256`, byte 0 the most significant. -/
def Obligations.CkFollowsItsFormula : Prop :=
  ∀ (i : Fin 32) (j : Fin 4),
    (wordByte romTables.ck[i.val] j).toNat = (4 * i.val + j.val) * 7 % 256

/-- R82, R83: `L` and `LPRIME` are linear over XOR and keep the all-ones word. -/
def Obligations.DiffusionIsLinear : Prop :=
  (∀ a b : Word, lin (a ^^^ b) = lin a ^^^ lin b) ∧
  (∀ a b : Word, linPrime (a ^^^ b) = linPrime a ^^^ linPrime b) ∧
  lin 0xFFFFFFFF = 0xFFFFFFFF ∧ linPrime 0xFFFFFFFF = 0xFFFFFFFF ∧
  lin 0x00000001 = 0x01040405 ∧ linPrime 0x00000001 = 0x00802001

/-! ### KEYSCHED -/

/-- R93, R90, R91, R92: with a 16-byte key `KEYSCHED` completes, and `RKOUT[i]` is `K[i+4]` of the
key's own sequence; with any other length it ends in `InvalidKeyLength`. -/
def Obligations.KeyschedExpandsTheKey : Prop :=
  ∀ (s : State) (key : List Byte), RunsKey s key →
    (∀ k : Block, key = k.toList → ∃ (K : Nat → Word) (ks : Schedule),
      K 0 = be32 k[0] k[1] k[2] k[3] ^^^ s.rom.fk[0] ∧
      K 1 = be32 k[4] k[5] k[6] k[7] ^^^ s.rom.fk[1] ∧
      K 2 = be32 k[8] k[9] k[10] k[11] ^^^ s.rom.fk[2] ∧
      K 3 = be32 k[12] k[13] k[14] k[15] ^^^ s.rom.fk[3] ∧
      (∀ i (h : i < 32),
        K (i + 4) = K i ^^^ tKey s.rom (K (i + 1) ^^^ K (i + 2) ^^^ K (i + 3) ^^^ s.rom.ck[i]) ∧
        ks[i] = K (i + 4)) ∧
      exec .keysched s = .next { s with
        phase := .done, latch := none, work := .noValue
        resp := { err := some .ok, rkout := some ks, blkout := none, out := none,
                  olen := some 0 } }) ∧
    (key.length ≠ 16 → exec .keysched s = .next { s with
      phase := .done, latch := none, work := .noValue
      resp := { err := some (.error .invalidKeyLength), rkout := none, blkout := none, out := none,
                olen := some 0 } })

/-- R92, the derived property: "`KEYEXP` is injective", whatever the tables. -/
def Obligations.KeyExpansionIsInjective : Prop :=
  ∀ (rom : Rom) (k k' : Block), keyScheduleOf rom k = keyScheduleOf rom k' → k = k'

/-! ### ENCBLK and DECBLK -/

/-- R101, R100: `ENCBLK` always completes with `OK`; `BLKOUT` is `X[35], X[34], X[33], X[32]`,
each big-endian, of the 32 rounds under `RK` in order. -/
def Obligations.EncblkRunsTheRounds : Prop :=
  ∀ (s : State) (b : Block) (ks : Schedule), RunsBlock s b ks →
    ∃ X : Nat → Word,
      X 0 = be32 b[0] b[1] b[2] b[3] ∧ X 1 = be32 b[4] b[5] b[6] b[7] ∧
      X 2 = be32 b[8] b[9] b[10] b[11] ∧ X 3 = be32 b[12] b[13] b[14] b[15] ∧
      (∀ i (h : i < 32),
        X (i + 4) = X i ^^^ tData s.rom (X (i + 1) ^^^ X (i + 2) ^^^ X (i + 3) ^^^ ks[i])) ∧
      exec .encblk s = .next { s with
        phase := .done, latch := none, work := .noValue
        resp := { err := some .ok, rkout := none, out := none, olen := some 0
                  blkout := some (blockOfWords (X 35) (X 34) (X 33) (X 32)) } }

/-- R102: `DECBLK` is the same rounds with the key of round `i` being `RK[31-i]`. -/
def Obligations.DecblkRunsTheRoundsReversed : Prop :=
  ∀ (s : State) (b : Block) (ks : Schedule), RunsBlock s b ks →
    ∃ X : Nat → Word,
      X 0 = be32 b[0] b[1] b[2] b[3] ∧ X 1 = be32 b[4] b[5] b[6] b[7] ∧
      X 2 = be32 b[8] b[9] b[10] b[11] ∧ X 3 = be32 b[12] b[13] b[14] b[15] ∧
      (∀ i (h : i < 32),
        X (i + 4) = X i ^^^ tData s.rom (X (i + 1) ^^^ X (i + 2) ^^^ X (i + 3) ^^^ ks[31 - i])) ∧
      exec .decblk s = .next { s with
        phase := .done, latch := none, work := .noValue
        resp := { err := some .ok, rkout := none, out := none, olen := some 0
                  blkout := some (blockOfWords (X 35) (X 34) (X 33) (X 32)) } }

/-- R103: `DECBLK` undoes `ENCBLK` and `ENCBLK` undoes `DECBLK`, for every block and all 32 words
of every schedule, both commands completing; and `DECBLK` with a schedule equals `ENCBLK` with the
schedule reversed, word for word, which R103 marks as derived from R101 and R102. -/
def Obligations.DecblkUndoesEncblk : Prop :=
  (∀ (s s' : State) (b c : Block) (ks : Schedule) (i i' : Instr),
    (i = .encblk ∧ i' = .decblk ∨ i = .decblk ∧ i' = .encblk) →
    s'.rom = s.rom → RunsBlock s b ks → RunsBlock s' c ks →
    ∃ t, exec i s = .next t ∧ (t.resp.blkout = some c →
      exec i' s' = .next (finish (.ofBlock b) s'))) ∧
  ∀ (s s' : State) (b : Block) (ks ks' : Schedule),
    (∀ i (h : i < 32), ks'[i] = ks[31 - i]) → s'.rom = s.rom →
    RunsBlock s b ks → RunsBlock s' b ks' →
    ∃ t t', exec .decblk s = .next t ∧ exec .encblk s' = .next t' ∧ t'.resp = t.resp

/-- The source's official vector (43_block_core.md R101's example; 40_tables.md section 5), with the
tables of R70 and R72, which are general knowledge (log 5, log 6). -/
def Obligations.OfficialVector : Prop :=
  let blk : Block := #v[0x01, 0x23, 0x45, 0x67, 0x89, 0xAB, 0xCD, 0xEF,
    0xFE, 0xDC, 0xBA, 0x98, 0x76, 0x54, 0x32, 0x10]
  ∃ t u, step ((accept ⟨0x00, some blk.toList, none, none, none, none⟩) State.reset) = .next t ∧
    step (accept ⟨0x01, none, none, none, some blk, t.resp.rkout⟩ t) = .next u ∧
    u.resp.blkout = some #v[0x68, 0x1E, 0xDF, 0x34, 0xD2, 0x06, 0x96, 0x5E,
      0x86, 0xB3, 0xE9, 0x4F, 0x53, 0x6E, 0x42, 0x46]

/-! ### ENCRYPT and DECRYPT -/

/-- R125, R121: in ECB, with a 16-byte key and whatever IV, encryption completes; the padded
plaintext is encrypted block by block, each under the key's own schedule. -/
def Obligations.EncryptEcbResult : Prop :=
  ∀ (s : State) (k : Block) (iv : Option (List Byte)) (data p : List Byte) (pad : Padding)
    (ivp : Bool),
    RunsMessage s k.toList iv data → padAddOf pad data = .ok p →
    ∃ c, exec (encInstr false pad ivp) s = .next (finish (.message c) s) ∧
      c.length = p.length ∧
      ∀ j : Nat, (blocksOf c)[j]? =
        (blocksOf p)[j]?.map (encBlockOf s.rom (keyScheduleOf s.rom k))

/-- R125, R123: in CBC, with a 16-byte key and a 16-byte IV that is present, encryption completes;
each block is XORed with the previous ciphertext block, the first with the IV, and encrypted. -/
def Obligations.EncryptCbcResult : Prop :=
  ∀ (s : State) (k iv : Block) (data p : List Byte) (pad : Padding),
    RunsMessage s k.toList (some iv.toList) data → padAddOf pad data = .ok p →
    let enc := encBlockOf s.rom (keyScheduleOf s.rom k)
    ∃ c, exec (encInstr true pad true) s = .next (finish (.message c) s) ∧
      c.length = p.length ∧
      (blocksOf c)[0]? = (blocksOf p)[0]?.map (fun b => enc (xor16 b iv)) ∧
      ∀ (j : Nat) (b prev : Block), (blocksOf p)[j + 1]? = some b → (blocksOf c)[j]? = some prev →
        (blocksOf c)[j + 1]? = some (enc (xor16 b prev))

/-- R126, R122: in ECB, with a 16-byte key and whole blocks of ciphertext, decryption decrypts block
by block, then removes the padding from the whole buffer `p` and completes with what is left. -/
def Obligations.DecryptEcbResult : Prop :=
  ∀ (s : State) (k : Block) (iv : Option (List Byte)) (data p m : List Byte) (pad : Padding)
    (ivp : Bool),
    RunsMessage s k.toList iv data → data.length % 16 = 0 → p.length = data.length →
    (∀ j : Nat, (blocksOf p)[j]? =
      (blocksOf data)[j]?.map (decBlockOf s.rom (keyScheduleOf s.rom k))) →
    padRemoveOf pad p = .ok m →
    exec (decInstr false pad ivp) s = .next (finish (.message m) s)

/-- R126, R124: in CBC, with a 16-byte key and IV and whole blocks of ciphertext, each block is
decrypted and then XORed with the previous ciphertext block, the first with the IV; the padding is
removed from the whole buffer `p`. -/
def Obligations.DecryptCbcResult : Prop :=
  ∀ (s : State) (k iv : Block) (data p m : List Byte) (pad : Padding),
    RunsMessage s k.toList (some iv.toList) data → data.length % 16 = 0 →
    p.length = data.length →
    (blocksOf p)[0]? = (blocksOf data)[0]?.map
      (fun c => xor16 (decBlockOf s.rom (keyScheduleOf s.rom k) c) iv) →
    (∀ (j : Nat) (c prev : Block), (blocksOf data)[j + 1]? = some c → (blocksOf data)[j]? = some prev →
      (blocksOf p)[j + 1]? = some (xor16 (decBlockOf s.rom (keyScheduleOf s.rom k) c) prev)) →
    padRemoveOf pad p = .ok m →
    exec (decInstr true pad true) s = .next (finish (.message m) s)

/-- R141, R120 step 1: a key of any length but 16 ends every `ENCRYPT` and `DECRYPT` word, reserved
`MODE` and `PAD` included, and `KEYSCHED`, in `InvalidKeyLength`, before anything else. -/
def Obligations.KeyLengthIsCheckedFirst : Prop :=
  ∀ (i : Instr) (d : Descriptor) (s : State) (key : List Byte), Ready i d s →
    (i = .keysched ∨ ∃ mode pad ivp, kind i = .encrypt mode pad ivp ∨
      kind i = .decrypt mode pad ivp) →
    d.key = some key → key.length ≠ 16 →
    exec i s = .next (finish (.failed .invalidKeyLength) s)

/-- R142, R120 step 2: with a good key, CBC without an IV or with an IV of another length than 16
ends in `InvalidIVLength`, whatever `PAD` and `DATA`; outside CBC no word ends so. That this error
comes before a reserved `PAD` and a bad length is the order of D7 (log 7, DESIGN CHOICE). -/
def Obligations.CbcNeedsA16ByteIv : Prop :=
  ∀ (i : Instr) (d : Descriptor) (s : State) (mode pad : BitVec 2) (ivp : Bool) (k : Block),
    Ready i d s → (kind i = .encrypt mode pad ivp ∨ kind i = .decrypt mode pad ivp) →
    d.key = some k.toList →
    (mode = 1#2 → (ivp = false ∨ ∃ v, d.iv = some v ∧ v.length ≠ 16) →
      exec i s = .next (finish (.failed .invalidIVLength) s)) ∧
    (mode ≠ 1#2 → exec i s ≠ .next (finish (.failed .invalidIVLength) s))

/-- R143, R114, R120 step 5: with a good key, and in CBC a good IV, a length that is no multiple of
16 ends `DECRYPT` with any padding, and `ENCRYPT` with no padding, in `InvalidInputLength`. -/
def Obligations.InputLengthIsChecked : Prop :=
  ∀ (s : State) (k iv : Block) (data : List Byte) (cbc : Bool) (pad : Padding) (ivp : Bool),
    RunsMessage s k.toList (some iv.toList) data → (cbc = true → ivp = true) →
    data.length % 16 ≠ 0 →
    exec (decInstr cbc pad ivp) s = .next (finish (.failed .invalidInputLength) s) ∧
    exec (encInstr cbc .none ivp) s = .next (finish (.failed .invalidInputLength) s)

/-- R144, R120 step 6: with everything before it good, `DECRYPT` with `PAD = PKCS7` ends in
`InvalidPadding` when the decrypted buffer is not some bytes followed by `n` bytes `n`, 1 to 16. -/
def Obligations.BadPaddingIsReported : Prop :=
  ∀ (s : State) (k iv : Block) (data : List Byte) (cbc ivp : Bool),
    RunsMessage s k.toList (some iv.toList) data → (cbc = true → ivp = true) →
    data.length % 16 = 0 →
    (∀ (m : List Byte) (n : Nat), 1 ≤ n → n ≤ 16 →
      decChainOf s.rom (keyScheduleOf s.rom k) (if cbc then .cbc iv else .ecb) data ≠
        m ++ List.replicate n (BitVec.ofNat 8 n)) →
    exec (decInstr cbc .pkcs7 ivp) s = .next (finish (.failed .invalidPadding) s)

/-- R145, R120 step 3: with a good key, `MODE` 2 or 3 ends in `UnsupportedMode`, whatever `PAD`,
IV and `DATA`. That this error comes before a reserved `PAD` and a bad length is the order of D7
(log 7, DESIGN CHOICE). -/
def Obligations.ReservedModeIsUnsupported : Prop :=
  ∀ (s : State) (k : Block) (iv : Option (List Byte)) (data : List Byte) (mode pad : BitVec 2)
    (ivp : Bool),
    RunsMessage s k.toList iv data → (mode = 2#2 ∨ mode = 3#2) →
    exec (.encRsvMode mode pad ivp) s = .next (finish (.failed .unsupportedMode) s) ∧
    exec (.decRsvMode mode pad ivp) s = .next (finish (.failed .unsupportedMode) s)

/-- R146, R120 step 4: with a good key, and in CBC a good IV, `PAD` 3 ends in
`UnsupportedPadding`, whatever `DATA`. That this error comes before a bad length, and after a bad IV,
is the order of D7 (log 7, DESIGN CHOICE). -/
def Obligations.ReservedPaddingIsUnsupported : Prop :=
  ∀ (s : State) (k : Block) (iv : Option (List Byte)) (data : List Byte) (mode : BitVec 2)
    (ivp : Bool),
    RunsMessage s k.toList iv data →
    (mode = 0#2 ∨ mode = 1#2 ∧ ivp = true ∧ ∃ v, iv = some v ∧ v.length = 16) →
    exec (.encRsvPad mode ivp) s = .next (finish (.failed .unsupportedPadding) s) ∧
    exec (.decRsvPad mode ivp) s = .next (finish (.failed .unsupportedPadding) s)

/-- R57, R147: exactly the words with `OP` 5, 6, 7, or `OP` 0, 1, 2 and a bit of 7:3 set, are
illegal, and each of the 18 rows completes with `IllegalCommand`, no output and `OLEN` 0, reading
no descriptor field. -/
def Obligations.IllegalWordsComplete : Prop :=
  (∀ c : Byte, kind (decode c) = .illegal ↔
    5 ≤ c.toNat % 8 ∨ c.toNat % 8 ≤ 2 ∧ c.toNat / 8 ≠ 0) ∧
  ∀ (i : Instr) (d : Descriptor) (s : State),
    kind i = .illegal → s.phase = .busy → s.latch = some d →
    exec i s = .next { s with
      phase := .done, latch := none, work := .noValue
      resp := { err := some (.error .illegalCommand), rkout := none, blkout := none, out := none,
                olen := some 0 } }

/-- R54, C1: in ECB `IVP`, `IV` and `IVLEN` change nothing: two descriptors that differ in them
alone have the same response. -/
def Obligations.EcbIgnoresTheIv : Prop :=
  ∀ (s s' : State) (key data : List Byte) (iv iv' : Option (List Byte)) (pad : Padding)
    (ivp ivp' : Bool),
    s'.rom = s.rom → RunsMessage s key iv data → RunsMessage s' key iv' data →
    (∃ t t', exec (encInstr false pad ivp) s = .next t ∧
      exec (encInstr false pad ivp') s' = .next t' ∧ t'.resp = t.resp) ∧
    ∃ t t', exec (decInstr false pad ivp) s = .next t ∧
      exec (decInstr false pad ivp') s' = .next t' ∧ t'.resp = t.resp

/-- R149, R120: of the causes that apply to an `ENCRYPT` or `DECRYPT` word the first of the list is
reported; when none of the first five applies the response is `OK` or, for `DECRYPT` with
`PAD = PKCS7` only, `InvalidPadding`. The order is the spec's D7 (log 7, DESIGN CHOICE). -/
def Obligations.FirstCauseIsReported : Prop :=
  ∀ (i : Instr) (d : Descriptor) (s t : State) (mode pad : BitVec 2) (ivp dec : Bool)
    (key data : List Byte),
    kind i = (if dec then .decrypt mode pad ivp else .encrypt mode pad ivp) → Ready i d s →
    d.key = some key → d.data = some data → exec i s = .next t →
    let causes : List (Bool × ErrorKind) := [
      (key.length != 16, .invalidKeyLength),
      (mode == 1#2 && (!ivp || (d.iv.getD []).length != 16), .invalidIVLength),
      (mode == 2#2 || mode == 3#2, .unsupportedMode),
      (pad == 3#2, .unsupportedPadding),
      ((dec || pad == 0#2) && data.length % 16 != 0, .invalidInputLength)]
    match causes.find? (·.1) with
    | some (_, e) => t.resp.err = some (.error e)
    | none => t.resp.err = some .ok ∨
        t.resp.err = some (.error .invalidPadding) ∧ dec = true ∧ pad = 1#2

/-- R127: for every 16-byte key, both modes and all paddings, decrypting what encrypting gave, under
the same key and in CBC the same IV, completes with the plaintext; with zero-padding when the
plaintext has no trailing zero byte, with no padding when its length is a multiple of 16. -/
def Obligations.DecryptUndoesEncrypt : Prop :=
  ∀ (s s' : State) (k iv : Block) (data c : List Byte) (cbc : Bool) (pad : Padding)
    (ivp ivp' : Bool),
    s'.rom = s.rom → (cbc = true → ivp = true ∧ ivp' = true) →
    (pad = .zero → data.getLast? ≠ some 0) → (pad = .none → data.length % 16 = 0) →
    RunsMessage s k.toList (some iv.toList) data →
    RunsMessage s' k.toList (some iv.toList) c →
    ∃ t, exec (encInstr cbc pad ivp) s = .next t ∧ t.resp.err = some .ok ∧
      (t.resp.out = some c →
        exec (decInstr cbc pad ivp') s' = .next (finish (.message data) s'))

/-- R128: XORing a nonzero mask into ciphertext block `i`, which is not the last, changes recovered
block `i`, XORs the mask into recovered block `i+1` and changes no other block; a mask in the IV goes
into block 0 alone. -/
def Obligations.CbcErrorPropagation : Prop :=
  ∀ (s s' : State) (k iv iv' mask : Block) (cs cs' : List Block) (i : Option Nat),
    s'.rom = s.rom → mask ≠ .replicate 16 0 →
    RunsMessage s k.toList (some iv.toList) (bytesOf cs) →
    RunsMessage s' k.toList (some iv'.toList) (bytesOf cs') →
    (∀ n, i = some n → iv' = iv ∧ n + 1 < cs.length ∧
      ∃ c, cs[n]? = some c ∧ cs' = cs.set n (xor16 c mask)) →
    (i = none → iv' = xor16 iv mask ∧ cs' = cs) →
    ∃ t t' p p', exec (.decCbcNone true) s = .next t ∧ exec (.decCbcNone true) s' = .next t' ∧
      t.resp = .message (bytesOf p) ∧ t'.resp = .message (bytesOf p') ∧
      p.length = cs.length ∧ p'.length = cs.length ∧
      (∀ n, i = some n → p'[n]? ≠ p[n]?) ∧
      p'[i.elim 0 (· + 1)]? = p[i.elim 0 (· + 1)]?.map (xor16 · mask) ∧
      ∀ j, j ≠ i.elim 0 (· + 1) → some j ≠ i → p'[j]? = p[j]?

/-- R129, the derived property: a host may cut a CBC message into runs. A first run of whole blocks
with `PAD = NONE` and a second run under its last ciphertext block as IV (the IV itself when the
first run is empty) give, one after the other, the output of the whole message. -/
def Obligations.CbcRunsMayBeSplit : Prop :=
  ∀ (s s1 s2 : State) (k iv iv2 : Block) (a : List Block) (q : List Byte) (pad : Padding),
    s1.rom = s.rom → s2.rom = s.rom → (pad = .none → q.length % 16 = 0) →
    RunsMessage s k.toList (some iv.toList) (bytesOf a ++ q) →
    RunsMessage s1 k.toList (some iv.toList) (bytesOf a) →
    RunsMessage s2 k.toList (some iv2.toList) q →
    ∃ t t1 t2 o1 o2, exec (.encCbcNone true) s1 = .next t1 ∧ t1.resp = .message (bytesOf o1) ∧
      exec (encInstr true pad true) s2 = .next t2 ∧ t2.resp = .message o2 ∧
      exec (encInstr true pad true) s = .next t ∧
      (o1.getLast?.getD iv = iv2 → t.resp = .message (bytesOf o1 ++ o2))

/-! ### Padding -/

/-- R110, R111: `PKCS7.REMOVE` answers `m` exactly on `m` followed by `n` bytes of value `n`, `n`
from 1 to 16, and fails on everything else; `PKCS7.ADD` appends such a tail up to a positive multiple
of 16, so removing undoes adding. -/
def Obligations.Pkcs7AddAndRemove : Prop :=
  (∀ b m : List Byte, pkcs7Remove b = some m ↔
    ∃ n, 1 ≤ n ∧ n ≤ 16 ∧ b = m ++ List.replicate n (BitVec.ofNat 8 n)) ∧
  (∀ b : List Byte, ∃ n, 1 ≤ n ∧ n ≤ 16 ∧ (b.length + n) % 16 = 0 ∧
    pkcs7Add b = b ++ List.replicate n (BitVec.ofNat 8 n)) ∧
  ∀ b : List Byte, pkcs7Remove (pkcs7Add b) = some b

/-- R112, R113: `ZERO.ADD` appends 0 to 15 zero bytes up to a multiple of 16; `ZERO.REMOVE` gives the
longest prefix that does not end in a zero byte, so it undoes `ZERO.ADD` when the input has no
trailing zero. -/
def Obligations.ZeroAddAndRemove : Prop :=
  (∀ b : List Byte, ∃ n, n ≤ 15 ∧ (b.length + n) % 16 = 0 ∧
    zeroAdd b = b ++ List.replicate n 0) ∧
  (∀ b : List Byte, (∃ n, b = zeroRemove b ++ List.replicate n 0) ∧
    (zeroRemove b).getLast? ≠ some 0) ∧
  ∀ b : List Byte, b.getLast? ≠ some 0 → zeroRemove (zeroAdd b) = b

/-- R125, R126, R19: the length of the output: `ENCRYPT` gives `DLEN + 16 - (DLEN mod 16)` with
PKCS7, `DLEN` rounded up with ZERO and `DLEN` with NONE; `DECRYPT` gives `DLEN` with NONE (R115), 1 to
16 bytes less with PKCS7 (R111) and at most `DLEN` with ZERO, which strips every trailing zero (R113). -/
def Obligations.OutputLengths : Prop :=
  ∀ (s t : State) (key : List Byte) (iv : Option (List Byte)) (data out : List Byte)
    (cbc : Bool) (pad : Padding) (ivp : Bool),
    RunsMessage s key iv data → t.resp.out = some out →
    (exec (encInstr cbc pad ivp) s = .next t →
      t.resp.olen = some out.length ∧
      out.length = match pad with
        | .none => data.length
        | .pkcs7 => data.length + 16 - data.length % 16
        | .zero => (data.length + 15) / 16 * 16) ∧
    (exec (decInstr cbc pad ivp) s = .next t →
      t.resp.olen = some out.length ∧ match pad with
        | .none => out.length = data.length
        | .pkcs7 => out.length < data.length ∧ data.length ≤ out.length + 16
        | .zero => out.length ≤ data.length)

/-! ### Every command -/

/-- R148, R150: an error records its kind and nothing else: no output field holds a value, `OLEN`
is 0, and the engine is done with the command. -/
def Obligations.ErrorLeavesNothing : Prop :=
  ∀ (i : Instr) (s t : State) (e : ErrorKind),
    exec i s = .next t → t.resp.err = some (.error e) →
    t = { s with
      phase := .done, latch := none, work := .noValue
      resp := { err := some (.error e), rkout := none, blkout := none, out := none,
                olen := some 0 } }

/-- R26, R11: the frame of every command: it replaces the response, leaves LATCH and every working
register without a value and the engine in DONE, and changes nothing else: the tables, the
capacities and the host side stay. -/
def Obligations.CommandFrame : Prop :=
  ∀ (i : Instr) (s t : State), exec i s = .next t →
    s.phase = .busy ∧ t.phase = .done ∧ t.latch = none ∧ t.work = .noValue ∧
    t.resp.wellShaped = true ∧
    t.rom = s.rom ∧ t.caps = s.caps ∧ t.host = s.host

/-- R26: "`complete` is always enabled in `BUSY` and every command ends": every instruction answers
a next state from every state with its operands latched. -/
def Obligations.EveryCommandCompletes : Prop :=
  ∀ (i : Instr) (d : Descriptor) (s : State), Ready i d s →
    ∃ r, responseOf s.rom i d = some r ∧ exec i s = .next { s with
      phase := .done, latch := none, work := .noValue, resp := r }

/-- R21, R34, R35: from no state whatever does a command read a working register that holds no value
or pass the end of a byte space. -/
def Obligations.UnitsWriteBeforeTheyRead : Prop :=
  ∀ (i : Instr) (s : State),
    (∀ r, exec i s ≠ .refused (.registerNoValue r)) ∧ ∀ f, exec i s ≠ .fault f

/-- R17, U15: a command's response does not depend on the descriptor fields it does not read. -/
def Obligations.ResponseIgnoresUnreadFields : Prop :=
  ∀ (i : Instr) (d d' : Descriptor) (s s' : State), Ready i d s → Ready i d' s' →
    s'.rom = s.rom → (∀ f ∈ fieldsRead i, sameField d d' f) →
    ∃ t t', exec i s = .next t ∧ exec i s' = .next t' ∧ t'.resp = t.resp

/-- R23, R26: what the working registers and the response held before has no effect on a command. -/
def Obligations.CommandIgnoresStaleState : Prop :=
  ∀ (i : Instr) (s : State) (w : Work) (r : Response),
    exec i { s with work := w, resp := r } = exec i s

/-! ### Every run -/

/-- R24, R170: the reset state satisfies the invariant. -/
def Obligations.ResetSatisfiesInv : Prop := Inv State.reset

/-- R16, R18, R19, R22, R178: every step keeps the invariant: the tables are the constants, working
registers hold no value between steps, LATCH holds a complete descriptor exactly in BUSY, the
response holds values exactly as R19 says and `OLEN` is at most `MAXLEN + 16`. -/
def Obligations.StepKeepsInv : Prop :=
  ∀ s t : State, Inv s → step s = .next t → Inv t

/-- R26, R170: in a state that satisfies the invariant, when the host has no action, waits or resets,
the step answers a next state. In BUSY that is `complete`, which R26 says is always enabled. In IDLE
and DONE the spec gives the engine no transition; that its turn there is a next state is the model's
form (log 13, DEDUCED). -/
def Obligations.EngineIsNeverStuck : Prop :=
  ∀ s : State, Inv s →
    (s.host.pending = [] ∨ ∃ rest, s.host.pending = .wait :: rest ∨
      s.host.pending = .reset :: rest) →
    ∃ t, step s = .next t

/-- R40, R26: from any state of a run in IDLE or DONE, an accepted descriptor is answered two steps
later, and the response is `Exec` of that descriptor: it depends on no other command. -/
def Obligations.IssuedCommandIsAnswered : Prop :=
  ∀ (s : State) (d : Descriptor) (rest : List HostAction),
    Inv s → s.phase ≠ .busy → s.host.pending = .issue d :: .wait :: rest →
    firstOverCap s.caps d = none → (∀ f ∈ fieldsRead (decode d.cmd), d.supplies f = true) →
    ∃ s1 t r, step s = .next s1 ∧ s1.phase = .busy ∧ step s1 = .next t ∧ t.phase = .done ∧
      t.host.pending = rest ∧ t.resp = r ∧ responseOf romTables (decode d.cmd) d = some r

/-- R11, R178: no step but a reset writes a table, and no step changes a capacity. -/
def Obligations.TablesAreNeverWritten : Prop :=
  ∀ s t : State, step s = .next t →
    t.caps = s.caps ∧ ((∀ rest, s.host.pending ≠ .reset :: rest) → t.rom = s.rom)

/-- R158: an instance's step changes no other instance, whatever those others would do themselves,
and steps of two instances commute. The list of instances is the model's form of `NINST` (log 1). -/
def Obligations.InstancesAreIndependent : Prop :=
  (∀ (sys sys1 : List State) (m : Nat) (hm : m < sys.length),
    systemStep sys ⟨m, hm⟩ = .next sys1 →
    sys1.length = sys.length ∧ ∀ k, k ≠ m → sys1[k]? = sys[k]?) ∧
  ∀ (sys sys1 sys2 : List State) (m n : Nat) (hm : m < sys.length) (hn : n < sys.length),
    m ≠ n → systemStep sys ⟨m, hm⟩ = .next sys1 → systemStep sys ⟨n, hn⟩ = .next sys2 →
    ∃ (hn1 : n < sys1.length) (hm2 : m < sys2.length) (sys12 : List State),
      systemStep sys1 ⟨n, hn1⟩ = .next sys12 ∧ systemStep sys2 ⟨m, hm2⟩ = .next sys12
end

