-- ==== Sys2Proof/Laws/State.lean ====
section
/-! SUPPORT. What each update of the state leaves in each field, so that no proof unfolds a record
update. -/

namespace Sys2Proof.Machine

@[simp] theorem finish_rom (r : Response) (s : State) :
    (finish r s).rom = s.rom := rfl

@[simp] theorem finish_phase (r : Response) (s : State) :
    (finish r s).phase = .done := rfl

@[simp] theorem finish_latch (r : Response) (s : State) :
    (finish r s).latch = none := rfl

@[simp] theorem finish_work (r : Response) (s : State) :
    (finish r s).work = .noValue := rfl

@[simp] theorem finish_resp (r : Response) (s : State) :
    (finish r s).resp = r := rfl

@[simp] theorem finish_caps (r : Response) (s : State) :
    (finish r s).caps = s.caps := rfl

@[simp] theorem finish_host (r : Response) (s : State) :
    (finish r s).host = s.host := rfl

@[simp] theorem raiseError_rom (e : ErrorKind) (s : State) :
    (raiseError e s).rom = s.rom := rfl

@[simp] theorem raiseError_phase (e : ErrorKind) (s : State) :
    (raiseError e s).phase = .done := rfl

@[simp] theorem raiseError_latch (e : ErrorKind) (s : State) :
    (raiseError e s).latch = none := rfl

@[simp] theorem raiseError_work (e : ErrorKind) (s : State) :
    (raiseError e s).work = .noValue := rfl

@[simp] theorem raiseError_resp (e : ErrorKind) (s : State) :
    (raiseError e s).resp = .failed e := rfl

@[simp] theorem raiseError_caps (e : ErrorKind) (s : State) :
    (raiseError e s).caps = s.caps := rfl

@[simp] theorem raiseError_host (e : ErrorKind) (s : State) :
    (raiseError e s).host = s.host := rfl

@[simp] theorem accept_rom (d : Descriptor) (s : State) :
    (accept d s).rom = s.rom := rfl

@[simp] theorem accept_phase (d : Descriptor) (s : State) :
    (accept d s).phase = .busy := rfl

@[simp] theorem accept_latch (d : Descriptor) (s : State) :
    (accept d s).latch = some d := rfl

@[simp] theorem accept_work (d : Descriptor) (s : State) :
    (accept d s).work = s.work := rfl

@[simp] theorem accept_resp (d : Descriptor) (s : State) :
    (accept d s).resp = .noValue := rfl

@[simp] theorem accept_caps (d : Descriptor) (s : State) :
    (accept d s).caps = s.caps := rfl

@[simp] theorem accept_host (d : Descriptor) (s : State) :
    (accept d s).host = s.host := rfl

@[simp] theorem resetEngine_rom (s : State) :
    (resetEngine s).rom = romTables := rfl

@[simp] theorem resetEngine_phase (s : State) :
    (resetEngine s).phase = .idle := rfl

@[simp] theorem resetEngine_latch (s : State) :
    (resetEngine s).latch = none := rfl

@[simp] theorem resetEngine_work (s : State) :
    (resetEngine s).work = .noValue := rfl

@[simp] theorem resetEngine_resp (s : State) :
    (resetEngine s).resp = State.reset.resp := rfl

@[simp] theorem resetEngine_caps (s : State) :
    (resetEngine s).caps = s.caps := rfl

@[simp] theorem resetEngine_host (s : State) :
    (resetEngine s).host = s.host := rfl

@[simp] theorem giveHost_rom (v : ReadValue) (s : State) :
    (giveHost v s).rom = s.rom := rfl

@[simp] theorem giveHost_phase (v : ReadValue) (s : State) :
    (giveHost v s).phase = s.phase := rfl

@[simp] theorem giveHost_latch (v : ReadValue) (s : State) :
    (giveHost v s).latch = s.latch := rfl

@[simp] theorem giveHost_work (v : ReadValue) (s : State) :
    (giveHost v s).work = s.work := rfl

@[simp] theorem giveHost_resp (v : ReadValue) (s : State) :
    (giveHost v s).resp = s.resp := rfl

@[simp] theorem giveHost_caps (v : ReadValue) (s : State) :
    (giveHost v s).caps = s.caps := rfl

@[simp] theorem giveHost_host (v : ReadValue) (s : State) :
    (giveHost v s).host = { s.host with got := some v } := rfl

@[simp] theorem tookTurn_rom (s : State) (rest : List HostAction) :
    (s.tookTurn rest).rom = s.rom := rfl

@[simp] theorem tookTurn_phase (s : State) (rest : List HostAction) :
    (s.tookTurn rest).phase = s.phase := rfl

@[simp] theorem tookTurn_latch (s : State) (rest : List HostAction) :
    (s.tookTurn rest).latch = s.latch := rfl

@[simp] theorem tookTurn_work (s : State) (rest : List HostAction) :
    (s.tookTurn rest).work = s.work := rfl

@[simp] theorem tookTurn_resp (s : State) (rest : List HostAction) :
    (s.tookTurn rest).resp = s.resp := rfl
@[simp] theorem tookTurn_status (s : State) (rest : List HostAction) :
    (s.tookTurn rest).status = s.status := rfl

@[simp] theorem tookTurn_caps (s : State) (rest : List HostAction) :
    (s.tookTurn rest).caps = s.caps := rfl

@[simp] theorem tookTurn_host (s : State) (rest : List HostAction) :
    (s.tookTurn rest).host = { s.host with pending := rest } := rfl

@[simp] theorem State.reset_rom : State.reset.rom = romTables := rfl
@[simp] theorem State.reset_phase : State.reset.phase = .idle := rfl
@[simp] theorem State.reset_latch : State.reset.latch = none := rfl
@[simp] theorem State.reset_work : State.reset.work = .noValue := rfl
@[simp] theorem State.reset_caps : State.reset.caps = .unbounded := rfl
@[simp] theorem State.reset_pending : State.reset.host.pending = [] := rfl

end Sys2Proof.Machine
end

