-- ==== Sys2Proof/Laws/Ops.lean ====
section
/-! SUPPORT. What the shared operations can do: register reads, the loop over a counter, `MemRead`,
`MemWrite`, `complete` and the frame `runCommand`. -/

namespace Sys2Proof.Machine

@[simp] theorem readReg_some {α : Type} (r : WorkReg) (a : α) : readReg r (some a) = .ok a := rfl

@[simp] theorem readReg_none {α : Type} (r : WorkReg) :
    readReg r (none : Option α) = .error (.noValue r) := rfl

@[simp] theorem except_ok_bind {ε α β : Type} (a : α) (f : α → Except ε β) :
    (Except.ok a >>= f) = f a := rfl

@[simp] theorem except_error_bind {ε α β : Type} (e : ε) (f : α → Except ε β) :
    (Except.error e >>= f) = Except.error e := rfl

/-- A counter register reads as what was put into it. -/
def Counter.Lawful {σ : Type} (c : Counter σ) : Prop := ∀ n s, c.get (c.put n s) = some n

theorem roundCounter_lawful : roundCounter.Lawful := fun _ _ => rfl

theorem blockCounter_lawful : blockCounter.Lawful := fun _ _ => rfl

theorem Counter.Lawful.beside {σ : Type} {c : Counter σ} (h : c.Lawful) (α : Type) :
    (c.beside α).Lawful := fun n p => h n p.2

@[simp] theorem roundCounter_put_K (n : Nat) (w : Work) :
    (roundCounter.put n w).K = w.K := rfl
@[simp] theorem roundCounter_put_rk (n : Nat) (w : Work) :
    (roundCounter.put n w).rk = w.rk := rfl
@[simp] theorem roundCounter_put_X (n : Nat) (w : Work) :
    (roundCounter.put n w).X = w.X := rfl
@[simp] theorem roundCounter_put_PREV (n : Nat) (w : Work) :
    (roundCounter.put n w).PREV = w.PREV := rfl
@[simp] theorem roundCounter_put_P (n : Nat) (w : Work) :
    (roundCounter.put n w).P = w.P := rfl
@[simp] theorem roundCounter_put_padLen (n : Nat) (w : Work) :
    (roundCounter.put n w).padLen = w.padLen := rfl
@[simp] theorem roundCounter_put_i (n : Nat) (w : Work) :
    (roundCounter.put n w).i = some n := rfl
@[simp] theorem roundCounter_put_j (n : Nat) (w : Work) :
    (roundCounter.put n w).j = w.j := rfl
@[simp] theorem blockCounter_put_K (n : Nat) (w : Work) :
    (blockCounter.put n w).K = w.K := rfl
@[simp] theorem blockCounter_put_rk (n : Nat) (w : Work) :
    (blockCounter.put n w).rk = w.rk := rfl
@[simp] theorem blockCounter_put_X (n : Nat) (w : Work) :
    (blockCounter.put n w).X = w.X := rfl
@[simp] theorem blockCounter_put_PREV (n : Nat) (w : Work) :
    (blockCounter.put n w).PREV = w.PREV := rfl
@[simp] theorem blockCounter_put_P (n : Nat) (w : Work) :
    (blockCounter.put n w).P = w.P := rfl
@[simp] theorem blockCounter_put_padLen (n : Nat) (w : Work) :
    (blockCounter.put n w).padLen = w.padLen := rfl
@[simp] theorem blockCounter_put_i (n : Nat) (w : Work) :
    (blockCounter.put n w).i = w.i := rfl
@[simp] theorem blockCounter_put_j (n : Nat) (w : Work) :
    (blockCounter.put n w).j = some n := rfl
@[simp] theorem beside_put {σ α : Type} (c : Counter σ) (n : Nat) (p : α × σ) :
    (c.beside α).put n p = (p.1, c.put n p.2) := rfl

/-- A loop over a counter register runs to its end, keeps whatever each round carries from one number
to the next, and leaves the counter at its upper end. -/
theorem forCounter_inv {σ : Type} {c : Counter σ} (hc : c.Lawful) {n : Nat}
    {body : Fin n → σ → Except Stop σ} {s : σ} (Q : Nat → σ → Prop) (h0 : Q 0 (c.put 0 s))
    (hs : ∀ (k : Fin n) (t : σ), Q k.val t →
      ∃ t', body k t = .ok t' ∧ Q (k.val + 1) (c.put (k.val + 1) t')) :
    ∃ t, forCounter c n body s = .ok t ∧ Q n t ∧ c.get t = some n := by
  have key : ∀ (d k : Nat) (t : σ), k + d = n → Q k t → c.get t = some k →
      ∃ t', turns c n body (d + 1) t = .ok t' ∧ Q n t' ∧ c.get t' = some n := by
    intro d
    induction d with
    | zero =>
      rintro k t rfl hq hg
      exact ⟨t, by simp [turns, hg], hq, hg⟩
    | succ d ih =>
      intro k t hk hq hg
      have hlt : k < n := by omega
      obtain ⟨t', ht, hq'⟩ := hs ⟨k, hlt⟩ t hq
      obtain ⟨u, hu, hr⟩ := ih (k + 1) _ (by omega) hq' (hc _ _)
      refine ⟨u, ?_, hr⟩
      rw [turns, hg]
      simp only [readReg_some, except_ok_bind, dif_pos hlt, ht]
      exact hu
  exact key n 0 _ (by omega) h0 (hc _ _)

theorem asBlock_eq_some {b : List Byte} {v : Block} : asBlock b = some v ↔ b = v.toList := by
  constructor
  · intro h
    unfold asBlock at h
    split at h
    · cases h; rfl
    · cases h
  · rintro rfl
    have h : v.toList.length = 16 := by simp
    rw [asBlock, dif_pos h]
    rfl

theorem asBlock_eq_none {b : List Byte} : asBlock b = none ↔ b.length ≠ 16 := by
  unfold asBlock; split <;> simp_all

@[simp] theorem asBlock_toList (v : Block) : asBlock v.toList = some v :=
  asBlock_eq_some.2 rfl

/-- R34: a slice is the bytes at the offsets `addr .. addr+n-1`, and is defined exactly when they
lie in the space. -/
theorem sliceBytes_eq_some {b v : List Byte} {addr n : Nat} :
    sliceBytes b addr n = some v ↔ addr + n ≤ b.length ∧ v = (b.drop addr).take n := by
  unfold sliceBytes; split <;> simp_all [eq_comm]

/-- Writing where the space already reaches keeps every byte outside the written ones. -/
theorem splice_getElem? {b v : List Byte} {addr : Nat} (h : addr ≤ b.length) (a : Nat) :
    (splice b addr v)[a]? =
      if a < addr then b[a]? else if a < addr + v.length then v[a - addr]? else b[a]? := by
  unfold splice
  have hl : (b.take addr).length = addr := by simp [h]
  rw [List.append_assoc]
  split
  · rw [List.getElem?_append_left (by omega), List.getElem?_take_of_lt (by omega)]
  · rw [List.getElem?_append_right (by omega), hl]
    split
    · rw [List.getElem?_append_left (by omega)]
    · rw [List.getElem?_append_right (by omega), List.getElem?_drop]
      congr 1; omega

@[simp] theorem splice_nil_zero (v : List Byte) : splice [] 0 v = v := by simp [splice]

@[simp] theorem bytes_out (r : Response) : OutSpace.out.bytes r = r.out.getD [] := rfl
@[simp] theorem bytes_blkout (r : Response) :
    OutSpace.blkout.bytes r = (r.blkout.map (·.toList)).getD [] := rfl
@[simp] theorem put_out (r : Response) (b : List Byte) :
    OutSpace.out.put r b = some { r with out := some b } := rfl
@[simp] theorem put_blkout (r : Response) (b : List Byte) :
    OutSpace.blkout.put r b = (asBlock b).map fun b => { r with blkout := some b } := rfl

/-- R35: when a write is made, and what it leaves. -/
theorem memWrite_ok {space : OutSpace} {addr : Nat} {v : List Byte} {r r' : Response} :
    memWrite space addr v r = .ok r' ↔ addr ≤ (space.bytes r).length ∧
      space.put r (splice (space.bytes r) addr v) = some r' := by
  unfold memWrite
  split
  · split <;> simp_all
  · simp_all

/-- R35: the only other answer is the stop outside the space. -/
theorem memWrite_error {space : OutSpace} {addr : Nat} {v : List Byte} {r : Response} :
    memWrite space addr v r = .error (.outside space.toSpace addr v.length) ↔
      ∀ r', memWrite space addr v r ≠ .ok r' := by
  unfold memWrite
  split
  · split <;> simp
  · simp

/-- R125: the whole of `OUT` written at offset 0 into a response that holds no value. -/
theorem memWrite_out_noValue (v : List Byte) :
    memWrite .out 0 v .noValue = .ok { Response.noValue with out := some v } := by
  simp [memWrite_ok, Response.noValue]

/-- R101: the whole of `BLKOUT` written at offset 0 into a response that holds no value. -/
theorem memWrite_blkout_noValue (b : Block) :
    memWrite .blkout 0 b.toList .noValue = .ok { Response.noValue with blkout := some b } := by
  simp [memWrite_ok, Response.noValue]

/-- The one way a meaning answers a next state: a latched descriptor in BUSY, every operand there,
and a run that ends in a response or in a raised error. -/
theorem runCommand_next {α : Type} {s t : State} {operands : Descriptor → Except DescField α}
    {run : α → Except Stop Response} (h : runCommand s operands run = .next t) :
    ∃ d a, s.phase = .busy ∧ s.latch = some d ∧ operands d = .ok a ∧
      ((∃ r, run a = .ok r ∧ t = finish r s) ∨
        ∃ e, run a = .error (.raised e) ∧ t = raiseError e s) := by
  unfold runCommand at h
  split at h
  · cases h
  · cases h
  · split at h
    · cases h
    · split at h
      · cases h
      · rename_i hp _ d hl _ a ha
        refine ⟨d, a, hp, hl, ha, ?_⟩
        unfold complete at h
        split at h
        · cases h; exact .inl ⟨_, ‹_›, rfl⟩
        · cases h; exact .inr ⟨_, ‹_›, rfl⟩
        · cases h
        · cases h

/-- In BUSY with the operands there, a meaning is `complete` of its run. -/
theorem runCommand_busy {α : Type} {s : State} {d : Descriptor} {a : α}
    {operands : Descriptor → Except DescField α} {run : α → Except Stop Response}
    (hp : s.phase = .busy) (hl : s.latch = some d) (ha : operands d = .ok a) :
    runCommand s operands run = complete s (run a) := by
  simp [runCommand, hp, hl, ha]

end Sys2Proof.Machine
end

