-- ==== Sys2Proof/Laws/KeySchedule.lean ====
section
/-! SUPPORT. The key expander on its registers computes the schedule of the key, and `KEYSCHED`
answers the response of 42_key_schedule.md R93. -/

namespace Sys2Proof.Machine

theorem roundWord_of_lt {v : Schedule} {n : Nat} (h : n < 32) : roundWord v n = v[n] := by
  simp [roundWord, h]

theorem wordSeq_add_four (t : Word → Word) (x0 x1 x2 x3 : Word) (r : Nat → Word) (n : Nat) :
    wordSeq t x0 x1 x2 x3 r (n + 4) = wordSeq t x0 x1 x2 x3 r n ^^^
      t (wordSeq t x0 x1 x2 x3 r (n + 1) ^^^ wordSeq t x0 x1 x2 x3 r (n + 2) ^^^
        wordSeq t x0 x1 x2 x3 r (n + 3) ^^^ r n) := rfl

/-- R92: `K[i+4] = K[i] ^ TPRIME(K[i+1] ^ K[i+2] ^ K[i+3] ^ CK[i])`. -/
theorem keySeq_add_four (rom : Rom) (key : Block) {n : Nat} (h : n < 32) :
    keySeq rom key (n + 4) = keySeq rom key n ^^^ tKey rom (keySeq rom key (n + 1) ^^^
      keySeq rom key (n + 2) ^^^ keySeq rom key (n + 3) ^^^ rom.ck[n]) := by
  unfold keySeq
  rw [wordSeq_add_four, roundWord_of_lt h]

/-- What round `n` of `KEYEXP` leaves: `K[0 .. n+3]` and `rk[0 .. n-1]` written, the registers of
the other units as they were. -/
structure KeyRounds (rom : Rom) (key : Block) (w0 : Work) (n : Nat) (w : Work) : Prop where
  K : ∀ m (h : m < 36), m < n + 4 → w.K[m] = some (keySeq rom key m)
  rk : ∀ m (h : m < 32), m < n → w.rk[m] = some (keySeq rom key (m + 4))
  i : w.i = some n
  X : w.X = w0.X
  PREV : w.PREV = w0.PREV
  P : w.P = w0.P
  padLen : w.padLen = w0.padLen
  j : w.j = w0.j

theorem keySeed_rounds (rom : Rom) (key : Block) (w : Work) :
    KeyRounds rom key w 0 (roundCounter.put 0 (keySeed rom key w)) := by
  refine ⟨fun m h hm => ?_, fun m h hm => by omega, rfl, rfl, rfl, rfl, rfl, rfl⟩
  obtain rfl | rfl | rfl | rfl : m = 0 ∨ m = 1 ∨ m = 2 ∨ m = 3 := by omega
  all_goals simp [keySeed, keySeq, wordSeq]

theorem keyRound_rounds {rom : Rom} {key : Block} {w0 w : Work} (i : Fin 32)
    (h : KeyRounds rom key w0 i.val w) :
    ∃ w', keyRound rom i w = .ok w' ∧
      KeyRounds rom key w0 (i.val + 1) (roundCounter.put (i.val + 1) w') := by
  have hi := i.isLt
  have hk : ∀ c (hc : c < 4), w.K[i.val + c]'(by omega) = some (keySeq rom key (i.val + c)) :=
    fun c hc => h.K _ _ (by omega)
  refine ⟨_, by
    simp only [keyRound, h.K i.val (by omega) (by omega), hk 1 (by omega), hk 2 (by omega),
      hk 3 (by omega), readReg_some, except_ok_bind]
    rfl, ?_⟩
  constructor
  · intro m hm hlt
    simp only [roundCounter_put_K]
    rw [Vector.getElem_set]
    split
    · rename_i he; subst he; rw [keySeq_add_four rom key hi]
    · exact h.K m hm (by omega)
  · intro m hm hlt
    simp only [roundCounter_put_rk]
    rw [Vector.getElem_set]
    split
    · rename_i he; subst he; rw [keySeq_add_four rom key hi]
    · exact h.rk m hm (by omega)
  · rfl
  · exact h.X
  · exact h.PREV
  · exact h.P
  · exact h.padLen
  · exact h.j

/-- R90 to R92: `KEYEXP` runs to its end from any working registers. -/
theorem keyexp_spec (rom : Rom) (key : Block) (w : Work) :
    ∃ w', keyexp rom key w = .ok w' ∧ KeyRounds rom key w 32 w' := by
  obtain ⟨w', hw, hr, -⟩ := forCounter_inv roundCounter_lawful (KeyRounds rom key w)
    (keySeed_rounds rom key w) fun i _ h => keyRound_rounds i h
  exact ⟨w', hw, hr⟩

/-- The registers `rk` hold this schedule. -/
def HoldsSchedule (w : Work) (ks : Schedule) : Prop := ∀ m (h : m < 32), w.rk[m] = some ks[m]

theorem KeyRounds.holdsSchedule {rom : Rom} {key : Block} {w0 w : Work}
    (h : KeyRounds rom key w0 32 w) : HoldsSchedule w (keyScheduleOf rom key) := by
  intro m hm
  rw [h.rk m hm hm]
  simp [keyScheduleOf]

theorem rkValues_of_holds {w : Work} {ks : Schedule} (h : HoldsSchedule w ks) :
    rkValues w = .ok ks := by
  have hl : w.rk.toList = ks.toList.map some := by
    apply List.ext_getElem (by simp)
    intro m h1 h2
    simpa using h m (by simpa using h1)
  have hall : w.rk.toList.all Option.isSome = true := by simp [hl]
  rw [rkValues, if_pos hall]
  congr 1
  apply Vector.toList_inj.1
  show w.rk.toList.map _ = _
  simp [hl]

/-- R93: what `KEYSCHED` computes, from any working registers. -/
theorem keysched_spec (rom : Rom) (w : Work) (key : List Byte) :
    keysched rom w key = match asBlock key with
      | some k => .ok (.schedule (keyScheduleOf rom k))
      | none => .error (.raised .invalidKeyLength) := by
  unfold keysched
  cases asBlock key with
  | none => rfl
  | some k =>
    obtain ⟨w', hw, hr⟩ := keyexp_spec rom k w
    simp only [hw, except_ok_bind, rkValues_of_holds hr.holdsSchedule]
    rfl

end Sys2Proof.Machine
end

