-- ==== Sys2Proof/Laws/BlockCore.lean ====
section
/-! SUPPORT. The datapath on its registers computes `CRYPT` (43_block_core.md R100), and the block
commands answer R101 and R102. -/

namespace Sys2Proof.Machine

/-- R100: `X[i+4] = X[i] ^ T(X[i+1] ^ X[i+2] ^ X[i+3] ^ r[i])`. -/
theorem cryptSeq_add_four (rom : Rom) (b : Block) (r : Schedule) {n : Nat} (h : n < 32) :
    cryptSeq rom b r (n + 4) = cryptSeq rom b r n ^^^ tData rom (cryptSeq rom b r (n + 1) ^^^
      cryptSeq rom b r (n + 2) ^^^ cryptSeq rom b r (n + 3) ^^^ r[n]) := by
  unfold cryptSeq
  rw [wordSeq_add_four, roundWord_of_lt h]

/-- What round `n` of `CRYPT` leaves: `X[0 .. n+3]` written, every register of another unit as it
was. -/
structure CryptRounds (rom : Rom) (b : Block) (r : Schedule) (w0 : Work) (n : Nat) (w : Work) :
    Prop where
  X : ∀ m (h : m < 36), m < n + 4 → w.X[m] = some (cryptSeq rom b r m)
  i : w.i = some n
  K : w.K = w0.K
  rk : w.rk = w0.rk
  PREV : w.PREV = w0.PREV
  P : w.P = w0.P
  padLen : w.padLen = w0.padLen
  j : w.j = w0.j

theorem cryptLoad_rounds (rom : Rom) (b : Block) (r : Schedule) (w : Work) :
    CryptRounds rom b r w 0 (roundCounter.put 0 (cryptLoad b w)) := by
  refine ⟨fun m h hm => ?_, rfl, rfl, rfl, rfl, rfl, rfl, rfl⟩
  obtain rfl | rfl | rfl | rfl : m = 0 ∨ m = 1 ∨ m = 2 ∨ m = 3 := by omega
  all_goals simp [cryptLoad, cryptSeq, wordSeq]

theorem cryptRound_rounds {rom : Rom} {b : Block} {ks : Schedule} {order : KeyOrder} {w0 w : Work}
    (hks : HoldsSchedule w0 ks) (i : Fin 32)
    (h : CryptRounds rom b (order.schedule ks) w0 i.val w) :
    ∃ w', cryptRound rom order i w = .ok w' ∧
      CryptRounds rom b (order.schedule ks) w0 (i.val + 1) (roundCounter.put (i.val + 1) w') := by
  have hi := i.isLt
  have hx : ∀ c (hc : c < 4),
      w.X[i.val + c]'(by omega) = some (cryptSeq rom b (order.schedule ks) (i.val + c)) :=
    fun c hc => h.X _ _ (by omega)
  have hr : w.rk[(order.index i).val] = some (order.schedule ks)[i.val] := by
    rw [h.rk, hks]; simp [KeyOrder.schedule]
  refine ⟨_, by
    simp only [cryptRound, h.X i.val (by omega) (by omega), hx 1 (by omega), hx 2 (by omega),
      hx 3 (by omega), hr, readReg_some, except_ok_bind]
    rfl, ?_⟩
  refine ⟨fun m hm hlt => ?_, rfl, h.K, h.rk, h.PREV, h.P, h.padLen, h.j⟩
  simp only [roundCounter_put_X]
  rw [Vector.getElem_set]
  split
  · rename_i he; subst he; rw [cryptSeq_add_four rom b _ hi]
  · exact h.X m hm (by omega)

/-- R100: `CRYPT` runs to its end when the registers `rk` hold a schedule, and answers the block of
R100; it changes `X` and `i` only. -/
theorem crypt_spec (rom : Rom) (order : KeyOrder) (b : Block) {w : Work} {ks : Schedule}
    (hks : HoldsSchedule w ks) :
    ∃ w', crypt rom order b w = .ok (cryptOf rom b (order.schedule ks), w') ∧
      CryptRounds rom b (order.schedule ks) w 32 w' := by
  obtain ⟨w', hw, hr, -⟩ := forCounter_inv roundCounter_lawful (body := cryptRound rom order)
    (CryptRounds rom b (order.schedule ks) w)
    (cryptLoad_rounds rom b (order.schedule ks) w) fun i _ h => cryptRound_rounds hks i h
  refine ⟨w', ?_, hr⟩
  simp only [crypt, hw, except_ok_bind, cryptOutput, hr.X 35 (by omega) (by omega),
    hr.X 34 (by omega) (by omega), hr.X 33 (by omega) (by omega), hr.X 32 (by omega) (by omega),
    readReg_some]
  rfl

theorem CryptRounds.holdsSchedule {rom : Rom} {b : Block} {r ks : Schedule} {w0 w : Work} {n : Nat}
    (h : CryptRounds rom b r w0 n w) (hks : HoldsSchedule w0 ks) : HoldsSchedule w ks := by
  intro m hm
  have := hks m hm
  simpa [h.rk] using this

theorem loadSchedule_holds (ks : Schedule) (w : Work) : HoldsSchedule (loadSchedule ks w) ks := by
  intro m hm
  simp [loadSchedule]

/-- R101, R102: what the block commands compute, from any working registers. -/
theorem blockCommand_spec (rom : Rom) (order : KeyOrder) (w : Work) (b : Block) (ks : Schedule) :
    blockCommand rom order w (b, ks) = .ok (.ofBlock (cryptOf rom b (order.schedule ks))) := by
  obtain ⟨w', hw, -⟩ := crypt_spec rom order b (loadSchedule_holds ks w)
  simp only [blockCommand, hw, except_ok_bind, memWrite_blkout_noValue]
  rfl

end Sys2Proof.Machine
end

