-- ==== Sys2Proof/Laws/Modes.lean ====
section
/-! SUPPORT. The mode controllers on their registers compute the byte sequences of 45_modes.md R121
to R124, and `ENCRYPT` and `DECRYPT` answer R125 and R126. -/

namespace Sys2Proof.Machine

@[simp] theorem blocksOf_length (b : List Byte) : (blocksOf b).length = b.length / 16 := by
  simp [blocksOf]

theorem blocksOf_take_succ (b : List Byte) (j : Fin (b.length / 16)) :
    (blocksOf b).take (j.val + 1) = (blocksOf b).take j.val ++ [blockAt b j] := by
  have hj : j.val < (blocksOf b).length := by simp
  rw [List.take_succ_eq_append_getElem hj]
  simp [blocksOf]

theorem blocksOf_take_all (b : List Byte) : (blocksOf b).take (b.length / 16) = blocksOf b := by
  rw [← blocksOf_length, List.take_length]

@[simp] theorem bytesOf_nil : bytesOf [] = [] := rfl

@[simp] theorem bytesOf_append (x y : List Block) : bytesOf (x ++ y) = bytesOf x ++ bytesOf y := by
  simp [bytesOf]

@[simp] theorem bytesOf_singleton (b : Block) : bytesOf [b] = b.toList := by simp [bytesOf]

@[simp] theorem bytesOf_cons (b : Block) (bs : List Block) :
    bytesOf (b :: bs) = b.toList ++ bytesOf bs := by simp [bytesOf]

theorem bytesOf_length (bs : List Block) : (bytesOf bs).length = 16 * bs.length := by
  induction bs with
  | nil => rfl
  | cons b bs ih => simp [ih]; omega

theorem bytesOf_drop (bs : List Block) (j : Nat) :
    (bytesOf bs).drop (16 * j) = bytesOf (bs.drop j) := by
  induction j generalizing bs with
  | zero => simp
  | succ j ih =>
    cases bs with
    | nil => simp
    | cons b bs =>
      rw [bytesOf_cons, List.drop_succ_cons, ← ih bs, List.drop_append,
        List.drop_eq_nil_of_le (by simp), List.nil_append]
      congr 1; simp; omega

/-- R33: the blocks of a sequence of blocks are those blocks. -/
theorem blocksOf_bytesOf (bs : List Block) : blocksOf (bytesOf bs) = bs := by
  apply List.ext_getElem (by simp [bytesOf_length])
  intro j h1 h2
  have hj : j < (bytesOf bs).length / 16 := by rw [bytesOf_length]; omega
  have hb : (blocksOf (bytesOf bs))[j] = blockAt (bytesOf bs) ⟨j, hj⟩ := by simp [blocksOf]
  rw [hb]
  apply Vector.toList_inj.1
  show ((bytesOf bs).drop (16 * j)).take 16 = _
  rw [bytesOf_drop, List.drop_eq_getElem_cons h2, bytesOf_cons,
    List.take_append_of_le_length (by simp), List.take_of_length_le (by simp)]

/-- A block's own bytes are one block. -/
theorem blocksOf_toList (b : Block) : blocksOf b.toList = [b] := by
  rw [← bytesOf_singleton, blocksOf_bytesOf]

/-- R121: `ECB.ENC` runs to its end on any `P` and answers the encrypted blocks. -/
theorem ecbEnc_spec (rom : Rom) {w : Work} {ks : Schedule} {p : List Byte}
    (hks : HoldsSchedule w ks) (hp : w.P = some p) :
    ∃ w', ecbEnc rom w = .ok (encChainOf rom ks .ecb p, w') := by
  obtain ⟨⟨c, w'⟩, hw, ⟨hc, -⟩, -⟩ := forCounter_inv (blockCounter_lawful.beside _)
    (body := ecbEncBlock rom p) (s := ([], w))
    (fun n st => st.1 = bytesOf (((blocksOf p).take n).map (encBlockOf rom ks)) ∧
      HoldsSchedule st.2 ks)
    ⟨by simp, hks⟩ (by
    rintro j ⟨c, w1⟩ ⟨hc, hk⟩
    obtain ⟨w2, hw2, hr⟩ := crypt_spec rom .forward (blockAt p j) hk
    refine ⟨_, by simp only [ecbEncBlock, hw2, except_ok_bind]; rfl, ?_, ?_⟩
    · simp only [beside_put] at hc ⊢
      rw [hc, blocksOf_take_succ, List.map_append, bytesOf_append]
      simp [encBlockOf]
    · exact hr.holdsSchedule hk)
  refine ⟨w', ?_⟩
  simp only [blocksOf_take_all] at hc
  rw [ecbEnc, show readReg .P w.P = .ok p by rw [hp]; rfl, except_ok_bind, hw, hc]
  rfl

/-- R122: `ECB.DEC` runs to its end and leaves the decrypted blocks in `P`. -/
theorem ecbDec_spec (rom : Rom) {w : Work} {ks : Schedule} (c : List Byte)
    (hks : HoldsSchedule w ks) :
    ∃ w', ecbDec rom c w = .ok w' ∧ w'.P = some (decChainOf rom ks .ecb c) := by
  obtain ⟨w', hw, ⟨hp, -⟩, -⟩ := forCounter_inv blockCounter_lawful (body := ecbDecBlock rom c)
    (s := { w with P := some [] })
    (fun n w => w.P = some (bytesOf (((blocksOf c).take n).map (decBlockOf rom ks))) ∧
      HoldsSchedule w ks)
    ⟨by simp, hks⟩ (by
    rintro j w1 ⟨hp, hk⟩
    obtain ⟨w2, hw2, hr⟩ := crypt_spec rom .reverse (blockAt c j) hk
    refine ⟨_, by
      simp only [ecbDecBlock, hw2, except_ok_bind, hr.P, hp, readReg_some]; rfl, ?_, ?_⟩
    · rw [blocksOf_take_succ, List.map_append, bytesOf_append]
      simp [decBlockOf]
    · exact hr.holdsSchedule hk)
  refine ⟨w', hw, ?_⟩
  rw [blocksOf_take_all] at hp
  exact hp

/-- The block CBC encryption XORs next: the last ciphertext block, or the IV. -/
theorem cbcEncBlocks_append (rom : Rom) (ks : Schedule) (prev : Block) (x y : List Block) :
    cbcEncBlocks rom ks prev (x ++ y) = cbcEncBlocks rom ks prev x ++
      cbcEncBlocks rom ks ((cbcEncBlocks rom ks prev x).getLast?.getD prev) y := by
  induction x generalizing prev with
  | nil => rfl
  | cons b bs ih =>
    simp only [List.cons_append, cbcEncBlocks, ih, List.getLast?_cons, Option.getD_some]

/-- The block CBC decryption XORs next: the last ciphertext block, or the IV. -/
theorem cbcDecBlocks_append (rom : Rom) (ks : Schedule) (prev : Block) (x y : List Block) :
    cbcDecBlocks rom ks prev (x ++ y) = cbcDecBlocks rom ks prev x ++
      cbcDecBlocks rom ks (x.getLast?.getD prev) y := by
  induction x generalizing prev with
  | nil => rfl
  | cons b bs ih =>
    simp only [List.cons_append, cbcDecBlocks, ih, List.getLast?_cons, Option.getD_some]

/-- R123: `CBC.ENC` runs to its end on any `P` and answers the chained blocks. -/
theorem cbcEnc_spec (rom : Rom) (iv : Block) {w : Work} {ks : Schedule} {p : List Byte}
    (hks : HoldsSchedule w ks) (hp : w.P = some p) :
    ∃ w', cbcEnc rom iv w = .ok (encChainOf rom ks (.cbc iv) p, w') := by
  obtain ⟨⟨c, w'⟩, hw, ⟨hc, -⟩, -⟩ := forCounter_inv (blockCounter_lawful.beside _)
    (body := cbcEncBlock rom p) (s := ([], { w with PREV := some iv }))
    (fun n st => st.1 = bytesOf (cbcEncBlocks rom ks iv ((blocksOf p).take n)) ∧
      st.2.PREV = some ((cbcEncBlocks rom ks iv ((blocksOf p).take n)).getLast?.getD iv) ∧
      HoldsSchedule st.2 ks)
    ⟨by simp [cbcEncBlocks], by simp [cbcEncBlocks], hks⟩ (by
    rintro j ⟨c, w1⟩ ⟨hc, hprev, hk⟩
    simp only at hc hprev hk
    obtain ⟨w2, hw2, hr⟩ := crypt_spec rom .forward (xor16 (blockAt p j)
      ((cbcEncBlocks rom ks iv ((blocksOf p).take j.val)).getLast?.getD iv)) hk
    refine ⟨_, by
      simp only [cbcEncBlock, hprev, readReg_some, hw2, except_ok_bind]; rfl, ?_, ?_, ?_⟩
    · simp only [beside_put, hc]
      rw [blocksOf_take_succ, cbcEncBlocks_append, bytesOf_append]
      simp [cbcEncBlocks, encBlockOf]
    · rw [blocksOf_take_succ, cbcEncBlocks_append]
      simp [cbcEncBlocks, encBlockOf]
    · exact hr.holdsSchedule hk)
  refine ⟨w', ?_⟩
  simp only [blocksOf_take_all] at hc
  rw [cbcEnc, show readReg .P w.P = .ok p by rw [hp]; rfl, except_ok_bind, hw, hc]
  rfl

/-- R124: `CBC.DEC` runs to its end and leaves the recovered blocks in `P`. -/
theorem cbcDec_spec (rom : Rom) (iv : Block) {w : Work} {ks : Schedule} (c : List Byte)
    (hks : HoldsSchedule w ks) :
    ∃ w', cbcDec rom iv c w = .ok w' ∧ w'.P = some (decChainOf rom ks (.cbc iv) c) := by
  obtain ⟨w', hw, ⟨hp, -⟩, -⟩ := forCounter_inv blockCounter_lawful (body := cbcDecBlock rom c)
    (s := { w with P := some [], PREV := some iv })
    (fun n w => w.P = some (bytesOf (cbcDecBlocks rom ks iv ((blocksOf c).take n))) ∧
      w.PREV = some (((blocksOf c).take n).getLast?.getD iv) ∧ HoldsSchedule w ks)
    ⟨by simp [cbcDecBlocks], by simp, hks⟩ (by
    rintro j w1 ⟨hp, hprev, hk⟩
    obtain ⟨w2, hw2, hr⟩ := crypt_spec rom .reverse (blockAt c j) hk
    refine ⟨_, by
      simp only [cbcDecBlock, hw2, except_ok_bind, hr.P, hr.PREV, hp, hprev, readReg_some]; rfl,
      ?_, ?_, ?_⟩
    · rw [blocksOf_take_succ, cbcDecBlocks_append, bytesOf_append]
      simp [cbcDecBlocks, decBlockOf]
    · rw [blocksOf_take_succ]
      simp
    · exact hr.holdsSchedule hk)
  refine ⟨w', hw, ?_⟩
  rw [blocksOf_take_all] at hp
  exact hp

/-- R110: what `PKCS7.ADD` leaves in `P` and in `padLen`. -/
theorem pkcs7AddUnit_spec (b : List Byte) (w : Work) :
    pkcs7AddUnit b w = .ok { w with
      P := some (pkcs7Add b)
      padLen := some (BitVec.ofNat 8 (pkcs7PadLen b.length)) } := by
  have h : (BitVec.ofNat 8 (pkcs7PadLen b.length)).toNat = pkcs7PadLen b.length := by
    simp only [BitVec.toNat_ofNat, pkcs7PadLen]; omega
  simp only [pkcs7AddUnit, readReg_some, except_ok_bind, h, pkcs7Add]

/-- R111: `PKCS7.REMOVE` answers or raises as its value says, with the last byte in `padLen`. -/
theorem pkcs7RemoveUnit_spec (b : List Byte) (w : Work) :
    pkcs7RemoveUnit b w = match pkcs7Remove b with
      | some m => .ok (m, { w with padLen := b.getLast? })
      | none => .error (.raised .invalidPadding) := by
  unfold pkcs7RemoveUnit pkcs7Remove
  cases b.getLast? with
  | none => rfl
  | some last =>
    simp only [readReg_some, except_ok_bind, Option.bind_some]
    cases pkcs7Strip b last <;> rfl

/-- R116: what `PAD.ADD` does; it leaves the round keys alone. -/
theorem padAdd_spec (pad : Padding) (b : List Byte) (w : Work) :
    (∃ p w', padAddOf pad b = .ok p ∧ padAdd pad b w = .ok w' ∧ w'.P = some p) ∨
      ∃ e, padAddOf pad b = .error e ∧ padAdd pad b w = .error (.raised e) := by
  cases pad with
  | none =>
    by_cases h : b.length % 16 = 0
    · exact .inl ⟨b, _, by simp [padAddOf, h], by simp [padAdd, noneAdd, h]; rfl, rfl⟩
    · exact .inr ⟨_, by simp [padAddOf, h]; rfl, by simp [padAdd, noneAdd, h]⟩
  | pkcs7 => exact .inl ⟨_, _, rfl, pkcs7AddUnit_spec b w, rfl⟩
  | zero => exact .inl ⟨_, _, rfl, rfl, rfl⟩

/-- R116: what `PAD.REMOVE` does with the buffer in `P`. -/
theorem padRemove_spec (pad : Padding) {w : Work} {p : List Byte} (hp : w.P = some p) :
    (∃ m w', padRemoveOf pad p = .ok m ∧ padRemove pad w = .ok (m, w')) ∨
      ∃ e, padRemoveOf pad p = .error e ∧ padRemove pad w = .error (.raised e) := by
  cases pad with
  | none => exact .inl ⟨_, _, rfl, by simp [padRemove, hp, noneRemove]; rfl⟩
  | pkcs7 =>
    cases h : pkcs7Remove p with
    | none =>
      exact .inr ⟨_, by simp [padRemoveOf, h]; rfl,
        by simp [padRemove, hp, pkcs7RemoveUnit_spec, h]⟩
    | some m =>
      exact .inl ⟨m, _, by simp [padRemoveOf, h],
        by simp [padRemove, hp, pkcs7RemoveUnit_spec, h]; rfl⟩
  | zero => exact .inl ⟨_, _, rfl, by simp [padRemove, hp]; rfl⟩

/-- A value-level result as the run of a command. -/
def runResult : Except ErrorKind (List Byte) → Except Stop Response
  | .ok b => .ok (.message b)
  | .error e => .error (.raised e)

theorem outResponse_spec (b : List Byte) : outResponse b = .ok (.message b) := by
  simp only [outResponse, memWrite_out_noValue, except_ok_bind]
  rfl

/-- R125: what `ENCRYPT` computes, from any working registers. -/
theorem encrypt_spec (rom : Rom) (w : Work) (mode pad : BitVec 2) (ops : MsgOperands) :
    encrypt rom w mode pad ops = runResult (encryptOf rom mode pad ops) := by
  unfold encrypt encryptOf validateUnit
  cases hv : validate mode pad ops with
  | error e => rfl
  | ok sel =>
    simp only [except_ok_bind]
    rcases padAdd_spec sel.pad ops.data w with ⟨p, w1, ho, hw, hp⟩ | ⟨e, ho, hw⟩
    · obtain ⟨w2, hw2, hr⟩ := keyexp_spec rom sel.key w1
      simp only [ho, hw, hw2, except_ok_bind]
      have hk := hr.holdsSchedule
      have hp2 : w2.P = some p := by rw [hr.P, hp]
      cases sel.chain with
      | ecb =>
        obtain ⟨w3, hw3⟩ := ecbEnc_spec rom hk hp2
        simp only [hw3, except_ok_bind, outResponse_spec, runResult]
      | cbc iv =>
        obtain ⟨w3, hw3⟩ := cbcEnc_spec rom iv hk hp2
        simp only [hw3, except_ok_bind, outResponse_spec, runResult]
    · simp only [ho, hw, except_error_bind, runResult]

/-- R126: what `DECRYPT` computes, from any working registers. -/
theorem decrypt_spec (rom : Rom) (w : Work) (mode pad : BitVec 2) (ops : MsgOperands) :
    decrypt rom w mode pad ops = runResult (decryptOf rom mode pad ops) := by
  unfold decrypt decryptOf validateUnit
  cases hv : validate mode pad ops with
  | error e => rfl
  | ok sel =>
    simp only [except_ok_bind]
    by_cases h : ops.data.length % 16 = 0
    · obtain ⟨w2, hw2, hr⟩ := keyexp_spec rom sel.key w
      have hk := hr.holdsSchedule
      have finishPad : ∀ w3 : Work,
          w3.P = some (decChainOf rom (keyScheduleOf rom sel.key) sel.chain ops.data) →
          (padRemove sel.pad w3 >>= fun x => outResponse x.1) = runResult (padRemoveOf sel.pad
            (decChainOf rom (keyScheduleOf rom sel.key) sel.chain ops.data)) := by
        intro w3 hp
        rcases padRemove_spec sel.pad hp with ⟨m, w4, ho, hw⟩ | ⟨e, ho, hw⟩
        · simp only [ho, hw, except_ok_bind, outResponse_spec, runResult]
        · simp only [ho, hw, except_error_bind, runResult]
      simp only [h, ne_eq, not_true_eq_false, if_false, if_true, hw2, except_ok_bind]
      cases hc : sel.chain with
      | ecb =>
        obtain ⟨w3, hw3, hp⟩ := ecbDec_spec rom ops.data hk
        simp only [hw3, except_ok_bind]
        rw [hc] at finishPad
        exact finishPad w3 hp
      | cbc iv =>
        obtain ⟨w3, hw3, hp⟩ := cbcDec_spec rom iv ops.data hk
        simp only [hw3, except_ok_bind]
        rw [hc] at finishPad
        exact finishPad w3 hp
    · simp [h, runResult]

end Sys2Proof.Machine
end

