-- ==== Sys2Proof/Laws/Commands.lean ====
section
/-! SUPPORT. Each kind of command as one shared operation, what a completion answers, and what a
descriptor that supplies the fields of a command gives as operands. -/

namespace Sys2Proof.Machine

/-- Every arm of `exec` is the shared operation of its kind. -/
theorem exec_kind (i : Instr) (s : State) :
    exec i s = match kind i with
      | .keysched => runCommand s keyOperand (keysched s.rom s.work)
      | .block order => runCommand s blockOperands (blockCommand s.rom order s.work)
      | .encrypt mode pad ivp => runEncrypt mode pad ivp s
      | .decrypt mode pad ivp => runDecrypt mode pad ivp s
      | .illegal => runIllegal s := by
  cases i <;> rfl

/-- The fields a command reads are those of its kind. -/
theorem fieldsRead_kind (i : Instr) :
    fieldsRead i = match kind i with
      | .keysched => [.key]
      | .block _ => [.block, .rk]
      | .encrypt mode _ ivp => msgFields mode ivp
      | .decrypt mode _ ivp => msgFields mode ivp
      | .illegal => [] := by
  cases i <;> rfl

@[simp] theorem kind_encInstr (cbc : Bool) (pad : Padding) (ivp : Bool) :
    kind (encInstr cbc pad ivp) = .encrypt (if cbc then 1#2 else 0#2)
      (match pad with | .none => 0#2 | .pkcs7 => 1#2 | .zero => 2#2) ivp := by
  cases cbc <;> cases pad <;> rfl

@[simp] theorem kind_decInstr (cbc : Bool) (pad : Padding) (ivp : Bool) :
    kind (decInstr cbc pad ivp) = .decrypt (if cbc then 1#2 else 0#2)
      (match pad with | .none => 0#2 | .pkcs7 => 1#2 | .zero => 2#2) ivp := by
  cases cbc <;> cases pad <;> rfl

theorem complete_runResult (s : State) (x : Except ErrorKind (List Byte)) :
    complete s (runResult x) = .next (finish (messageResponse x) s) := by
  cases x <;> rfl

/-- R125: an `ENCRYPT` word with its operands latched completes with the response of its values. -/
theorem runEncrypt_busy {s : State} {d : Descriptor} {mode pad : BitVec 2} {ivp : Bool}
    {ops : MsgOperands} (hp : s.phase = .busy) (hl : s.latch = some d)
    (ho : msgOperands mode ivp d = .ok ops) :
    runEncrypt mode pad ivp s =
      .next (finish (messageResponse (encryptOf s.rom mode pad ops)) s) := by
  rw [runEncrypt, runCommand_busy hp hl ho, encrypt_spec, complete_runResult]

/-- R126: a `DECRYPT` word with its operands latched completes with the response of its values. -/
theorem runDecrypt_busy {s : State} {d : Descriptor} {mode pad : BitVec 2} {ivp : Bool}
    {ops : MsgOperands} (hp : s.phase = .busy) (hl : s.latch = some d)
    (ho : msgOperands mode ivp d = .ok ops) :
    runDecrypt mode pad ivp s =
      .next (finish (messageResponse (decryptOf s.rom mode pad ops)) s) := by
  rw [runDecrypt, runCommand_busy hp hl ho, decrypt_spec, complete_runResult]

/-- R93: `KEYSCHED` with its operand latched completes with the response of its key. -/
theorem runKeysched_busy {s : State} {d : Descriptor} {key : List Byte}
    (hp : s.phase = .busy) (hl : s.latch = some d) (hk : d.key = some key) :
    runCommand s keyOperand (keysched s.rom s.work) =
      .next (finish (keyschedResponse s.rom key) s) := by
  rw [runCommand_busy (a := key) hp hl (by simp [keyOperand, hk]), keysched_spec]
  unfold keyschedResponse
  cases asBlock key <;> rfl

/-- R101, R102: a block command with its operands latched completes with `CRYPT` of them. -/
theorem runBlock_busy {s : State} {d : Descriptor} {b : Block} {ks : Schedule} (order : KeyOrder)
    (hp : s.phase = .busy) (hl : s.latch = some d) (hb : d.block = some b) (hk : d.rk = some ks) :
    runCommand s blockOperands (blockCommand s.rom order s.work) =
      .next (finish (.ofBlock (cryptOf s.rom b (order.schedule ks))) s) := by
  rw [runCommand_busy (a := (b, ks)) hp hl (by simp [blockOperands, hb, hk]), blockCommand_spec]
  rfl

/-- R57: an illegal word completes with `IllegalCommand`. -/
theorem runIllegal_busy {s : State} {d : Descriptor} (hp : s.phase = .busy)
    (hl : s.latch = some d) : runIllegal s = .next (finish (.failed .illegalCommand) s) := by
  rw [runIllegal, runCommand_busy (a := ()) hp hl rfl]
  rfl

theorem firstAbsent_eq_none {d : Descriptor} {fields : List DescField} :
    firstAbsent d fields = none ↔ ∀ f ∈ fields, d.supplies f = true := by
  simp [firstAbsent]

/-- R54: the operands of a `MSG` word, once `KEY` and `DATA` are there and, in CBC with `IVP = 1`,
the IV is. -/
theorem msgOperands_eq {mode : BitVec 2} {ivp : Bool} {d : Descriptor} {key data : List Byte}
    (hk : d.key = some key) (hd : d.data = some data)
    (hv : mode = 1#2 → ivp = true → d.iv.isSome = true) :
    msgOperands mode ivp d =
      .ok ⟨key, if mode = 1#2 ∧ ivp = true then d.iv else none, data⟩ := by
  unfold msgOperands
  rw [hk, hd]
  by_cases h : mode = 1#2 ∧ ivp = true
  · obtain ⟨v, hiv⟩ := Option.isSome_iff_exists.1 (hv h.1 h.2)
    simp [h, hiv]
  · simp [h]

/-- A descriptor that supplies the fields of a `MSG` word gives its operands. -/
theorem msgOperands_of_supplied {mode : BitVec 2} {ivp : Bool} {d : Descriptor}
    (h : firstAbsent d (msgFields mode ivp) = none) :
    ∃ key data, d.key = some key ∧ d.data = some data ∧
      msgOperands mode ivp d =
        .ok ⟨key, if mode = 1#2 ∧ ivp = true then d.iv else none, data⟩ := by
  rw [firstAbsent_eq_none] at h
  have hk : d.key.isSome = true := h .key (by unfold msgFields; split <;> simp)
  have hd : d.data.isSome = true := h .data (by unfold msgFields; split <;> simp)
  obtain ⟨key, hk⟩ := Option.isSome_iff_exists.1 hk
  obtain ⟨data, hd⟩ := Option.isSome_iff_exists.1 hd
  refine ⟨key, data, hk, hd, msgOperands_eq hk hd fun hm hi => ?_⟩
  exact h .iv (by simp [msgFields, hm, hi])

end Sys2Proof.Machine
end

