-- ==== Sys2Proof/Laws/Instances.lean ====
section
/-! SUPPORT. Several instances: what a system's step can do, and that the constraints of R5 on `NINST`
and the capacities hold after reset and `NINST` is kept. -/

namespace Sys2Proof.Machine

/-- R158: the one way a system answers: its instance answers, and that instance alone is replaced. -/
theorem systemStep_next {sys sys' : List State} {n : Fin sys.length} :
    systemStep sys n = .next sys' ↔ ∃ t, step sys[n] = .next t ∧ sys' = sys.set n t := by
  unfold systemStep
  cases step sys[n] <;> simp [eq_comm]

theorem systemLegal_iff {sys : List State} :
    systemLegal sys = true ↔ 1 ≤ sys.length ∧ ∀ s ∈ sys, s.caps.legal = true := by
  simp [systemLegal, Config.ninstLegal]

theorem defaultNinst_legal : Config.ninstLegal Config.defaultNinst = true := rfl

@[simp] theorem systemReset_length (ninst : Nat) (h : Config.ninstLegal ninst = true) :
    (systemReset ninst h).length = ninst := by simp [systemReset]

/-- The default system is the one instance of `State.reset`. -/
theorem systemReset_default : systemReset Config.defaultNinst defaultNinst_legal = [State.reset] :=
  rfl

/-- Every system right after reset satisfies R5. -/
theorem systemReset_legal (ninst : Nat) (h : Config.ninstLegal ninst = true) :
    systemLegal (systemReset ninst h) = true := by
  refine systemLegal_iff.2 ⟨?_, fun s hs => ?_⟩
  · simpa [Config.ninstLegal] using h
  · rw [List.eq_of_mem_replicate hs]; rfl

/-- `NINST` is a parameter: every step of a system keeps it. That each instance keeps its own
capacities is a statement about `step`. -/
theorem systemStep_length {sys sys' : List State} {n : Fin sys.length}
    (h : systemStep sys n = .next sys') : sys'.length = sys.length := by
  obtain ⟨t, -, rfl⟩ := systemStep_next.1 h
  simp

end Sys2Proof.Machine
end

