-- ==== Sys2Proof/Laws/Step.lean ====
section
/-! SUPPORT. What one step can do, said once: the response a command ends with, what an accepted
issue and a host read leave, and the cases of `step`. -/

namespace Sys2Proof.Machine

/-- R19, R148: the responses a command can end with. -/
inductive CommandResponse : Response → Prop where
  | schedule (ks : Schedule) : CommandResponse (.schedule ks)
  | ofBlock (b : Block) : CommandResponse (.ofBlock b)
  | message (b : List Byte) : CommandResponse (.message b)
  | failed (e : ErrorKind) : CommandResponse (.failed e)

theorem messageResponse_command (x : Except ErrorKind (List Byte)) :
    CommandResponse (messageResponse x) := by
  cases x
  · exact .failed _
  · exact .message _

theorem keyschedResponse_command (rom : Rom) (key : List Byte) :
    CommandResponse (keyschedResponse rom key) := by
  unfold keyschedResponse; split
  · exact .schedule _
  · exact .failed _

/-- The operand of `KEYSCHED` comes from the field `KEY`. -/
theorem keyOperand_eq_ok {d : Descriptor} {key : List Byte} (h : keyOperand d = .ok key) :
    d.key = some key := by
  unfold keyOperand at h; split at h <;> cases h; assumption

/-- The operands of a block command come from the fields `BLOCK` and `RK`. -/
theorem blockOperands_eq_ok {d : Descriptor} {b : Block} {ks : Schedule}
    (h : blockOperands d = .ok (b, ks)) : d.block = some b ∧ d.rk = some ks := by
  unfold blockOperands at h; split at h <;> cases h; exact ⟨‹_›, ‹_›⟩

/-- R26: what an instruction can do. When it answers a next state, BUSY held a latched descriptor
and the command is finished with a response of one of four forms. -/
theorem exec_next {i : Instr} {s t : State} (h : exec i s = .next t) :
    ∃ d r, s.phase = .busy ∧ s.latch = some d ∧ responseOf s.rom i d = some r ∧
      CommandResponse r ∧ t = finish r s := by
  rw [exec_kind] at h
  unfold responseOf
  cases hk : kind i with
  | keysched =>
    simp only [hk] at h
    obtain ⟨d, key, hp, hl, ho, -⟩ := runCommand_next h
    rw [runKeysched_busy hp hl (keyOperand_eq_ok ho)] at h
    cases h
    exact ⟨d, _, hp, hl, by simp only [ho]; rfl, keyschedResponse_command _ _, rfl⟩
  | block order =>
    simp only [hk] at h
    obtain ⟨d, ⟨b, ks⟩, hp, hl, ho, -⟩ := runCommand_next h
    obtain ⟨hb, hks⟩ := blockOperands_eq_ok ho
    rw [runBlock_busy order hp hl hb hks] at h
    cases h
    exact ⟨d, _, hp, hl, by simp only [ho]; rfl, .ofBlock _, rfl⟩
  | encrypt mode pad ivp =>
    simp only [hk] at h
    obtain ⟨d, ops, hp, hl, ho, -⟩ := runCommand_next h
    rw [runEncrypt_busy hp hl ho] at h
    cases h
    exact ⟨d, _, hp, hl, by simp only [encryptResponse, ho]; rfl, messageResponse_command _, rfl⟩
  | decrypt mode pad ivp =>
    simp only [hk] at h
    obtain ⟨d, ops, hp, hl, ho, -⟩ := runCommand_next h
    rw [runDecrypt_busy hp hl ho] at h
    cases h
    exact ⟨d, _, hp, hl, by simp only [decryptResponse, ho]; rfl, messageResponse_command _, rfl⟩
  | illegal =>
    simp only [hk] at h
    obtain ⟨d, _, hp, hl, -, -⟩ := runCommand_next h
    rw [runIllegal_busy hp hl] at h
    cases h
    exact ⟨d, _, hp, hl, rfl, .failed _, rfl⟩

/-- R25: an accepted issue came in IDLE or DONE, fits the capacities and lacks no operand. -/
theorem issue_next {d : Descriptor} {s t : State} (h : issue d s = .next t) :
    s.phase ≠ .busy ∧ firstOverCap s.caps d = none ∧
      firstAbsent d (fieldsRead (decode d.cmd)) = none ∧ t = accept d s := by
  unfold issue at h
  (repeat' split at h) <;> cases h <;> exact ⟨by simp [*], ‹_›, ‹_›, rfl⟩

/-- R27: a host read changes nothing but what the host got. -/
theorem hostRead_next {f : ReadField} {s t : State} (h : hostRead f s = .next t) :
    ∃ v, t = giveHost v s := by
  have hr : ∀ f v, readResponse f v s = .next t → ∃ v, t = giveHost v s := by
    intro f v h; unfold readResponse at h; (repeat' split at h) <;> cases h; exact ⟨_, rfl⟩
  have hb : ∀ sp a n, readBytes sp a n s = .next t → ∃ v, t = giveHost v s := by
    intro sp a n h; unfold readBytes at h; (repeat' split at h) <;> cases h; exact ⟨_, rfl⟩
  unfold hostRead at h
  split at h
  · split at h <;> cases h; exact ⟨_, rfl⟩
  all_goals first | exact hr _ _ h | exact hb _ _ _ h | cases h

/-- R26, R160: the engine's turn does nothing outside BUSY and runs the latched word in BUSY. -/
theorem engineTurn_next {s t : State} (h : engineTurn s = .next t) :
    s.phase ≠ .busy ∧ t = s ∨
      s.phase = .busy ∧ ∃ d, s.latch = some d ∧ exec (decode d.cmd) s = .next t := by
  unfold engineTurn at h
  split at h
  · cases h; exact .inl ⟨by simp [*], rfl⟩
  · cases h; exact .inl ⟨by simp [*], rfl⟩
  · split at h
    · cases h
    · exact .inr ⟨‹_›, _, ‹_›, h⟩

/-- R10: the cases of a step that answers a next state. -/
theorem step_next {s t : State} (h : step s = .next t) :
    (s.host.pending = [] ∧ engineTurn s = .next t) ∨
      ∃ a rest, s.host.pending = a :: rest ∧
        match a with
        | .wait => engineTurn (s.tookTurn rest) = .next t
        | .issue d => issue d (s.tookTurn rest) = .next t
        | .read f => hostRead f (s.tookTurn rest) = .next t
        | .reset => t = resetEngine (s.tookTurn rest) := by
  unfold step at h
  split at h
  · exact .inl ⟨‹_›, h⟩
  · exact .inr ⟨_, _, ‹_›, h⟩
  · exact .inr ⟨_, _, ‹_›, h⟩
  · exact .inr ⟨_, _, ‹_›, h⟩
  · cases h; exact .inr ⟨_, _, ‹_›, rfl⟩

end Sys2Proof.Machine
end

