-- ==== Sys2Proof/Laws/Memory.lean ====
section
/-! SUPPORT. The canonical form of the byte spaces (`Memory.wf`, log 9): the reset state has it, and
every operation on the state keeps it. -/

namespace Sys2Proof.Machine

theorem reset_memory_wf : Memory.wf State.reset = true := rfl

theorem accept_memory_wf (d : Descriptor) (s : State) : Memory.wf (accept d s) = true := rfl

theorem resetEngine_memory_wf (s : State) : Memory.wf (resetEngine s) = true := rfl

theorem giveHost_memory_wf (v : ReadValue) (s : State) :
    Memory.wf (giveHost v s) = Memory.wf s := rfl

theorem tookTurn_memory_wf (s : State) (rest : List HostAction) :
    Memory.wf (s.tookTurn rest) = Memory.wf s := rfl

theorem raiseError_memory_wf (e : ErrorKind) (s : State) : Memory.wf (raiseError e s) = true := rfl

/-- R125: the write of a whole `OUT` leaves the canonical form. -/
theorem outResponse_memory_wf {b : List Byte} {r : Response} (h : outResponse b = .ok r)
    (s : State) : Memory.wf (finish r s) = true := by
  rw [outResponse_spec] at h
  cases h
  simp [Memory.wf, Response.message]

/-- R19: every response a command ends with leaves the canonical form. -/
theorem finish_memory_wf {r : Response} (h : CommandResponse r) (s : State) :
    Memory.wf (finish r s) = true := by
  cases h <;> simp [Memory.wf, Response.schedule, Response.ofBlock, Response.message,
    Response.failed, Response.noValue]

/-- Every command leaves the canonical form, whatever it started from. -/
theorem exec_memory_wf {i : Instr} {s t : State} (h : exec i s = .next t) :
    Memory.wf t = true := by
  obtain ⟨d, r, -, -, -, hr, rfl⟩ := exec_next h
  exact finish_memory_wf hr s

theorem engineTurn_memory_wf {s t : State} (hs : Memory.wf s = true)
    (h : engineTurn s = .next t) : Memory.wf t = true := by
  obtain ⟨-, rfl⟩ | ⟨-, d, -, he⟩ := engineTurn_next h
  · exact hs
  · exact exec_memory_wf he

/-- Every step keeps the canonical form. -/
theorem step_memory_wf {s t : State} (hs : Memory.wf s = true) (h : step s = .next t) :
    Memory.wf t = true := by
  obtain ⟨-, he⟩ | ⟨a, rest, -, ha⟩ := step_next h
  · exact engineTurn_memory_wf hs he
  · cases a with
    | issue d => obtain ⟨-, -, -, rfl⟩ := issue_next ha; exact accept_memory_wf _ _
    | read f => obtain ⟨v, rfl⟩ := hostRead_next ha; exact hs
    | reset => cases ha; exact resetEngine_memory_wf _
    | wait => exact engineTurn_memory_wf (s := s.tookTurn rest) hs ha

end Sys2Proof.Machine
end

