-- ==== Sys2Proof/Laws/PerInstr.lean ====
section
/-! SUPPORT. A law of every instruction as syntax, one lemma per constructor: the command word says
the kind of the instruction and carries its fields (30_encoding.md R50, R51, R57). -/

namespace Sys2Proof.Laws.WordSaysKind

/-- What the word of each kind of command looks like: `OP` names the command and `MODE`, `PAD`,
`IVP` are its fields; the illegal words have a reserved `OP` or a must-be-zero bit set. -/
def wordSays (c : Byte) : Machine.Kind → Bool
  | .keysched => c == 0x00
  | .block .forward => c == 0x01
  | .block .reverse => c == 0x02
  | .encrypt mode pad ivp =>
    opField c == 3#3 && modeField c == mode && padField c == pad && ivpField c == ivp
  | .decrypt mode pad ivp =>
    opField c == 4#3 && modeField c == mode && padField c == pad && ivpField c == ivp
  | .illegal => decide (5 ≤ (opField c).toNat) ||
    decide ((opField c).toNat ≤ 2) && hiField c != 0#5

/-- The word of a well-formed instruction says its kind. -/
def Statement (i : Instr) : Prop := i.wf = true → wordSays (encodeWord i) (Machine.kind i) = true

theorem keysched : Statement .keysched := by
  unfold Statement; decide

theorem encblk : Statement .encblk := by
  unfold Statement; decide

theorem decblk : Statement .decblk := by
  unfold Statement; decide

theorem encEcbNone (ivp : Bool) : Statement (.encEcbNone ivp) := by
  unfold Statement; revert ivp; decide

theorem encEcbPkcs7 (ivp : Bool) : Statement (.encEcbPkcs7 ivp) := by
  unfold Statement; revert ivp; decide

theorem encEcbZero (ivp : Bool) : Statement (.encEcbZero ivp) := by
  unfold Statement; revert ivp; decide

theorem encCbcNone (ivp : Bool) : Statement (.encCbcNone ivp) := by
  unfold Statement; revert ivp; decide

theorem encCbcPkcs7 (ivp : Bool) : Statement (.encCbcPkcs7 ivp) := by
  unfold Statement; revert ivp; decide

theorem encCbcZero (ivp : Bool) : Statement (.encCbcZero ivp) := by
  unfold Statement; revert ivp; decide

theorem decEcbNone (ivp : Bool) : Statement (.decEcbNone ivp) := by
  unfold Statement; revert ivp; decide

theorem decEcbPkcs7 (ivp : Bool) : Statement (.decEcbPkcs7 ivp) := by
  unfold Statement; revert ivp; decide

theorem decEcbZero (ivp : Bool) : Statement (.decEcbZero ivp) := by
  unfold Statement; revert ivp; decide

theorem decCbcNone (ivp : Bool) : Statement (.decCbcNone ivp) := by
  unfold Statement; revert ivp; decide

theorem decCbcPkcs7 (ivp : Bool) : Statement (.decCbcPkcs7 ivp) := by
  unfold Statement; revert ivp; decide

theorem decCbcZero (ivp : Bool) : Statement (.decCbcZero ivp) := by
  unfold Statement; revert ivp; decide

theorem encRsvMode (mode : BitVec 2) (pad : BitVec 2) (ivp : Bool) :
    Statement (.encRsvMode mode pad ivp) := by
  unfold Statement; revert mode pad ivp; decide

theorem decRsvMode (mode : BitVec 2) (pad : BitVec 2) (ivp : Bool) :
    Statement (.decRsvMode mode pad ivp) := by
  unfold Statement; revert mode pad ivp; decide

theorem encRsvPad (mode : BitVec 2) (ivp : Bool) : Statement (.encRsvPad mode ivp) := by
  unfold Statement; revert mode ivp; decide

theorem decRsvPad (mode : BitVec 2) (ivp : Bool) : Statement (.decRsvPad mode ivp) := by
  unfold Statement; revert mode ivp; decide

theorem illegalOp5 (hi : BitVec 5) : Statement (.illegalOp5 hi) := by
  unfold Statement; revert hi; decide

theorem illegalOp6 (hi : BitVec 5) : Statement (.illegalOp6 hi) := by
  unfold Statement; revert hi; decide

theorem illegalOp7 (hi : BitVec 5) : Statement (.illegalOp7 hi) := by
  unfold Statement; revert hi; decide

theorem illegalKeyschedBit7 (hi : BitVec 5) : Statement (.illegalKeyschedBit7 hi) := by
  unfold Statement; revert hi; decide

theorem illegalKeyschedBit6 (hi : BitVec 5) : Statement (.illegalKeyschedBit6 hi) := by
  unfold Statement; revert hi; decide

theorem illegalKeyschedBit5 (hi : BitVec 5) : Statement (.illegalKeyschedBit5 hi) := by
  unfold Statement; revert hi; decide

theorem illegalKeyschedBit4 (hi : BitVec 5) : Statement (.illegalKeyschedBit4 hi) := by
  unfold Statement; revert hi; decide

theorem illegalKeyschedBit3 : Statement .illegalKeyschedBit3 := by
  unfold Statement; decide

theorem illegalEncblkBit7 (hi : BitVec 5) : Statement (.illegalEncblkBit7 hi) := by
  unfold Statement; revert hi; decide

theorem illegalEncblkBit6 (hi : BitVec 5) : Statement (.illegalEncblkBit6 hi) := by
  unfold Statement; revert hi; decide

theorem illegalEncblkBit5 (hi : BitVec 5) : Statement (.illegalEncblkBit5 hi) := by
  unfold Statement; revert hi; decide

theorem illegalEncblkBit4 (hi : BitVec 5) : Statement (.illegalEncblkBit4 hi) := by
  unfold Statement; revert hi; decide

theorem illegalEncblkBit3 : Statement .illegalEncblkBit3 := by
  unfold Statement; decide

theorem illegalDecblkBit7 (hi : BitVec 5) : Statement (.illegalDecblkBit7 hi) := by
  unfold Statement; revert hi; decide

theorem illegalDecblkBit6 (hi : BitVec 5) : Statement (.illegalDecblkBit6 hi) := by
  unfold Statement; revert hi; decide

theorem illegalDecblkBit5 (hi : BitVec 5) : Statement (.illegalDecblkBit5 hi) := by
  unfold Statement; revert hi; decide

theorem illegalDecblkBit4 (hi : BitVec 5) : Statement (.illegalDecblkBit4 hi) := by
  unfold Statement; revert hi; decide

theorem illegalDecblkBit3 : Statement .illegalDecblkBit3 := by
  unfold Statement; decide

end Sys2Proof.Laws.WordSaysKind
end

