-- ==== Sys2Proof/Tests/Slice0.lean ====
section
/-! SUPPORT. Tests: words decoded by hand from the encoding tables, ill-formed terms refused, values of
95_test_vectors.md, and for each obligation with hypotheses a concrete case that meets them. -/

namespace Sys2Proof.Tests

open Sys2Proof.Machine

/-! ### Decoding: words written bit by bit as `IVP PAD MODE OP` (30_encoding.md R50, R57, R59) -/

theorem test_decode_units : decode 0b00000000 = .keysched ∧ decode 0b00000001 = .encblk ∧
    decode 0b00000010 = .decblk := by decide

theorem test_decode_enc : decode 0b00000011 = .encEcbNone false ∧
    decode 0b10100011 = .encEcbPkcs7 true ∧ decode 0b01000011 = .encEcbZero false ∧
    decode 0b10001011 = .encCbcNone true ∧ decode 0b00101011 = .encCbcPkcs7 false ∧
    decode 0b11001011 = .encCbcZero true := by decide

theorem test_decode_dec : decode 0b10000100 = .decEcbNone true ∧
    decode 0b00100100 = .decEcbPkcs7 false ∧ decode 0b11000100 = .decEcbZero true ∧
    decode 0b00001100 = .decCbcNone false ∧ decode 0b10101100 = .decCbcPkcs7 true ∧
    decode 0b01001100 = .decCbcZero false := by decide

theorem test_decode_reserved : decode 0b00110011 = .encRsvMode 2 1 false ∧
    decode 0b11111011 = .encRsvMode 3 3 true ∧ decode 0b10010100 = .decRsvMode 2 0 true ∧
    decode 0b01011100 = .decRsvMode 3 2 false ∧ decode 0b01100011 = .encRsvPad 0 false ∧
    decode 0b11101011 = .encRsvPad 1 true ∧ decode 0b11100100 = .decRsvPad 0 true ∧
    decode 0b01101100 = .decRsvPad 1 false := by decide

theorem test_decode_reservedOp : decode 0b00000101 = .illegalOp5 0 ∧
    decode 0b10101110 = .illegalOp6 0b10101 ∧ decode 0b11111111 = .illegalOp7 0b11111 := by decide

theorem test_decode_illegalKeysched : decode 0b11010000 = .illegalKeyschedBit7 0b11010 ∧
    decode 0b01001000 = .illegalKeyschedBit6 0b01001 ∧
    decode 0b00111000 = .illegalKeyschedBit5 0b00111 ∧
    decode 0b00010000 = .illegalKeyschedBit4 0b00010 ∧
    decode 0b00001000 = .illegalKeyschedBit3 := by decide

theorem test_decode_illegalEncblk : decode 0b10000001 = .illegalEncblkBit7 0b10000 ∧
    decode 0b01111001 = .illegalEncblkBit6 0b01111 ∧
    decode 0b00100001 = .illegalEncblkBit5 0b00100 ∧
    decode 0b00011001 = .illegalEncblkBit4 0b00011 ∧
    decode 0b00001001 = .illegalEncblkBit3 := by decide

theorem test_decode_illegalDecblk : decode 0b11111010 = .illegalDecblkBit7 0b11111 ∧
    decode 0b01010010 = .illegalDecblkBit6 0b01010 ∧
    decode 0b00110010 = .illegalDecblkBit5 0b00110 ∧
    decode 0b00010010 = .illegalDecblkBit4 0b00010 ∧
    decode 0b00001010 = .illegalDecblkBit3 := by decide

/-- R58 and 95_test_vectors.md section 10: 189 of the 256 words decode to no command. -/
theorem test_decode_illegalCount :
    ((List.range 256).filter fun w => kind (decode (BitVec.ofNat 8 w)) == .illegal).length = 189 := by
  decide +kernel

theorem test_decode_rejects : decodeBytes [] = .error .endOfInput ∧ decodeTableWord 8 256 = none ∧
    decodeTableWord 16 0 = none ∧ decodeTableWord 8 0x2B = some (.encCbcPkcs7 false) :=
  ⟨rfl, by decide, by decide, by decide⟩

/-! ### Well-formedness: each check refuses an ill-formed term -/

theorem test_wf_rsvMode : (Instr.encRsvMode 1 0 false).wf = false ∧
    (Instr.decRsvMode 0 3 true).wf = false ∧ (Instr.encRsvMode 2 0 false).wf = true := by decide

theorem test_wf_rsvPad : (Instr.encRsvPad 2 false).wf = false ∧
    (Instr.decRsvPad 3 true).wf = false ∧ (Instr.decRsvPad 1 true).wf = true := by decide

theorem test_wf_bit7 : (Instr.illegalKeyschedBit7 0b01111).wf = false ∧
    (Instr.illegalEncblkBit7 0).wf = false ∧ (Instr.illegalDecblkBit7 0b00001).wf = false := by decide

theorem test_wf_bit6 : (Instr.illegalKeyschedBit6 0b11000).wf = false ∧
    (Instr.illegalEncblkBit6 0b00111).wf = false ∧
    (Instr.illegalDecblkBit6 0).wf = false := by decide

theorem test_wf_bit5 : (Instr.illegalKeyschedBit5 0b01100).wf = false ∧
    (Instr.illegalEncblkBit5 0b10100).wf = false ∧
    (Instr.illegalDecblkBit5 0b00011).wf = false := by decide

theorem test_wf_bit4 : (Instr.illegalKeyschedBit4 0b00001).wf = false ∧
    (Instr.illegalEncblkBit4 0b00110).wf = false ∧
    (Instr.illegalDecblkBit4 0b10010).wf = false := by decide

/-! ### Primitives and padding (95_test_vectors.md sections 4 and 7) -/

theorem test_rotl32 : rotl32 0x12345678 13 = 0x8ACF0246 ∧ rotl32 0xDEADBEEF 0 = 0xDEADBEEF ∧
    rotl32 0x00000001 31 = 0x80000000 := by decide

theorem test_tau : tau romTables 0x00010203 = 0xD690E9FE ∧
    tau romTables 0xDEADBEEF = 0xB4535B84 := by decide +kernel

theorem test_lin : lin 0x12345678 = 0xAA4E9357 ∧ linPrime 0x12345678 = 0xA4F24E15 := by decide

theorem test_transforms : tData romTables 0xF002C39E = 0x26D99622 ∧
    tKey romTables 0x8283CB69 = 0x53B37958 := by decide +kernel

theorem test_pkcs7Add : pkcs7Add [0x61, 0x62, 0x63] =
    [0x61, 0x62, 0x63, 0x0D, 0x0D, 0x0D, 0x0D, 0x0D, 0x0D, 0x0D, 0x0D, 0x0D, 0x0D, 0x0D, 0x0D, 0x0D] ∧
    pkcs7Add [] = List.replicate 16 0x10 := by decide

/-- A wrong middle byte, a last byte 0, a last byte 17, the empty buffer (D14). -/
theorem test_pkcs7Remove_fails :
    pkcs7Remove (List.replicate 13 0x41 ++ [0x03, 0x04, 0x03]) = none ∧
    pkcs7Remove (List.replicate 15 0x41 ++ [0x00]) = none ∧
    pkcs7Remove (List.replicate 15 0x41 ++ [0x11]) = none ∧ pkcs7Remove [] = none := by decide

theorem test_pkcs7Remove : pkcs7Remove (List.replicate 16 0x0F) = some [0x0F] ∧
    pkcs7Remove (List.replicate 16 0x10) = some [] := by decide

theorem test_zero : zeroAdd [] = [] ∧ zeroAdd [0x41] = 0x41 :: List.replicate 15 0 ∧
    zeroRemove [0x41, 0x42, 0x00, 0x43, 0x00, 0x00] = [0x41, 0x42, 0x00, 0x43] ∧
    zeroRemove [0, 0] = [] := by decide

/-! ### Commands (95_test_vectors.md sections 2, 6, 8, 9) -/

/-- The official key, and the official plaintext block. -/
def key0 : Block := #v[0x01, 0x23, 0x45, 0x67, 0x89, 0xAB, 0xCD, 0xEF,
  0xFE, 0xDC, 0xBA, 0x98, 0x76, 0x54, 0x32, 0x10]

def iv0 : Block := #v[0, 1, 2, 3, 4, 5, 6, 7, 8, 9, 10, 11, 12, 13, 14, 15]

def key15 : List Byte := key0.toList.take 15

def abc : List Byte := [0x61, 0x62, 0x63]

/-- The engine after `issue` of a message descriptor. -/
def messageState (key : List Byte) (iv : Option (List Byte)) (data : List Byte) : State :=
  accept ⟨0, some key, iv, some data, none, none⟩ State.reset

/-- The engine after `issue` of a block descriptor. -/
def blockState (b : Block) (ks : Schedule) : State :=
  accept ⟨0, none, none, none, some b, some ks⟩ State.reset

/-- The engine with the host's coming actions. -/
def withHost (s : State) (actions : List HostAction) : State :=
  { s with host := ⟨actions, none⟩ }

/-- The engine in DONE with a response. -/
def doneState (r : Response) : State := finish r State.reset

def responseOfStep (i : Instr) (s : State) : Option Response :=
  match exec i s with
  | .next t => some t.resp
  | .fault _ => none
  | .refused _ => none

/-- The last of the round keys is `9124A012`. -/
theorem test_keysched : ((responseOfStep .keysched (messageState key0.toList none [])).bind
    (·.rkout)).map (·[31]) = some 0x9124A012 := by decide +kernel

/-- A schedule no key need produce: 32 zero words. -/
theorem test_encblk : (responseOfStep .encblk (blockState key0 (.replicate 32 0))).bind (·.blkout) =
    some #v[0x8F, 0x8A, 0x24, 0xF6, 0xC1, 0xB6, 0x9F, 0xD7,
      0xDF, 0x46, 0xC0, 0xFC, 0xF6, 0x55, 0xCC, 0x3E] := by decide +kernel

/-- The schedule `rk[i] = i`, which `DECBLK` must use backwards. -/
theorem test_decblk : (responseOfStep .decblk (blockState
    #v[0x93, 0x5A, 0x95, 0xB3, 0x17, 0xA6, 0x95, 0xB9,
      0xA9, 0x56, 0x92, 0xB6, 0xD5, 0xE9, 0x49, 0xE0] (.ofFn fun i => BitVec.ofNat 32 i.val))).bind
    (·.blkout) = some (.replicate 16 0) := by decide +kernel

/-- `ENC.CBC.PKCS7` of "abc". -/
theorem test_encCbcPkcs7 :
    (responseOfStep (.encCbcPkcs7 true) (messageState key0.toList (some iv0.toList) abc)).bind
      (·.out) = some [0x43, 0x01, 0x69, 0x3C, 0x44, 0x8C, 0x7D, 0xA7,
        0xCF, 0xF1, 0x3F, 0x84, 0x69, 0x0F, 0x7D, 0xEA] := by decide +kernel

/-- `DEC.ECB.ZERO` of the ciphertext of "abc". -/
theorem test_decEcbZero :
    (responseOfStep (.decEcbZero false) (messageState key0.toList none
      [0x90, 0x54, 0xFC, 0xCF, 0xF7, 0x28, 0x71, 0xFD,
        0xAD, 0x52, 0x02, 0xC8, 0x21, 0xDB, 0xEA, 0x05])).bind (·.out) = some abc := by
  decide +kernel

/-- Lines E1, E2, E13. -/
theorem test_error_keyLength :
    responseOfStep (.encEcbPkcs7 false) (messageState key15 none abc) =
      some (.failed .invalidKeyLength) ∧
    responseOfStep (.decEcbPkcs7 false) (messageState key15 none key0.toList) =
      some (.failed .invalidKeyLength) ∧
    responseOfStep .keysched (messageState key15 none []) =
      some (.failed .invalidKeyLength) := by decide

/-- Lines E6, E7, E8. -/
theorem test_error_ivLength :
    responseOfStep (.encCbcPkcs7 false) (messageState key0.toList none abc) =
      some (.failed .invalidIVLength) ∧
    responseOfStep (.encCbcPkcs7 true) (messageState key0.toList (some (iv0.toList.take 15)) abc) =
      some (.failed .invalidIVLength) ∧
    responseOfStep (.decCbcNone true) (messageState key0.toList (some []) key0.toList) =
      some (.failed .invalidIVLength) := by decide

/-- Lines E5, E10, E11. -/
theorem test_error_inputLength :
    responseOfStep (.decCbcPkcs7 true) (messageState key0.toList (some iv0.toList)
      (key0.toList ++ [0])) = some (.failed .invalidInputLength) ∧
    responseOfStep (.encEcbNone false) (messageState key0.toList none key15) =
      some (.failed .invalidInputLength) ∧
    responseOfStep (.decEcbZero false) (messageState key0.toList none key15) =
      some (.failed .invalidInputLength) := by decide

/-- Lines E16, E18, Q4, Q5, Q10: a reserved mode comes after the key and before all else. -/
theorem test_error_mode :
    responseOfStep (.encRsvMode 2 1 false) (messageState key0.toList none key0.toList) =
      some (.failed .unsupportedMode) ∧
    responseOfStep (.encRsvMode 3 3 false) (messageState key0.toList none key15) =
      some (.failed .unsupportedMode) ∧
    responseOfStep (.encRsvMode 2 1 false) (messageState key15 none key0.toList) =
      some (.failed .invalidKeyLength) ∧
    responseOfStep (.decRsvMode 2 0 true) (messageState key0.toList (some key15) key0.toList) =
      some (.failed .unsupportedMode) := by decide

/-- Lines E17, Q6, Q7, Q8: a reserved padding comes after the IV and before the length. -/
theorem test_error_padding :
    responseOfStep (.encRsvPad 0 false) (messageState key0.toList none key0.toList) =
      some (.failed .unsupportedPadding) ∧
    responseOfStep (.encRsvPad 1 true) (messageState key0.toList (some []) key0.toList) =
      some (.failed .invalidIVLength) ∧
    responseOfStep (.encRsvPad 1 false) (messageState key0.toList none key0.toList) =
      some (.failed .invalidIVLength) ∧
    responseOfStep (.decRsvPad 0 false) (messageState key0.toList none key15) =
      some (.failed .unsupportedPadding) := by decide

/-- Lines E19 to E22: an illegal word needs no operand. -/
theorem test_error_illegal :
    let s := accept ⟨0x05, none, none, none, none, none⟩ State.reset
    responseOfStep (.illegalOp5 0) s = some (.failed .illegalCommand) ∧
    responseOfStep .illegalKeyschedBit3 s = some (.failed .illegalCommand) ∧
    responseOfStep (.illegalEncblkBit7 0x10) s = some (.failed .illegalCommand) ∧
    responseOfStep (.illegalDecblkBit4 0x02) s = some (.failed .illegalCommand) := by decide

/-- 95_test_vectors.md section 8.8: `DEC` of the empty ciphertext. -/
theorem test_emptyCiphertext :
    responseOfStep (.decEcbPkcs7 false) (messageState key0.toList none []) =
      some (.failed .invalidPadding) ∧
    responseOfStep (.decCbcNone true) (messageState key0.toList (some iv0.toList) []) =
      some (.message []) := by decide +kernel

/-! ### The host side -/

/-- Program 6: reset, an issue, STATUS while BUSY, a second issue refused. -/
theorem test_status_busy :
    let d : Descriptor := ⟨0x03, some key0.toList, none, some key0.toList, none, none⟩
    State.reset.status = some 0x00 ∧ (accept d State.reset).status = some 0x10 ∧
    step (withHost (accept d State.reset) [.issue d]) = .refused .issueWhileBusy ∧
    (doneState (.failed .invalidPadding)).status = some 0x24 := ⟨rfl, rfl, rfl, rfl⟩

/-- R34: a read past the end of `OUT` is a fault, a read inside it gives the bytes. -/
theorem test_read_bytes :
    step (withHost (doneState (.message abc)) [.read (.bytes .out 2 2)]) =
      .fault (.outsideBuffer .out 2 2) ∧
    step (withHost (doneState (.message abc)) [.read (.bytes .out 1 2)]) =
      .next { doneState (.message abc) with host := ⟨[], some (.bytes [0x62, 0x63])⟩ } :=
  ⟨rfl, rfl⟩

/-- A word placed with `withFetchWord` is the first command to complete. -/
theorem test_withFetchWord :
    (match step (State.reset.withFetchWord 8 0xFF) with
      | .next t => t.status
      | .fault _ => none
      | .refused _ => none) = some 0x27 := by decide

/-! ### Witnesses: for each obligation with hypotheses, a case that meets all of them -/

/-- A descriptor of each format. -/
def msgDescriptor : Descriptor := ⟨0xAB, some key0.toList, some iv0.toList, some abc, none, none⟩

def blkDescriptor : Descriptor := ⟨0x01, none, none, none, some key0, some (.replicate 32 0)⟩

theorem messageState_runs (key : List Byte) (iv : Option (List Byte)) (data : List Byte) :
    RunsMessage (messageState key iv data) key iv data := ⟨rfl, _, rfl, rfl, rfl, rfl⟩

theorem blockState_runs (b : Block) (ks : Schedule) : RunsBlock (blockState b ks) b ks :=
  ⟨rfl, _, rfl, rfl, rfl⟩

theorem messageState_ready (i : Instr) (hi : fieldsRead i ⊆ [.key, .data, .iv])
    (key iv data : List Byte) :
    Ready i ⟨0, some key, some iv, some data, none, none⟩ (messageState key (some iv) data) := by
  refine ⟨rfl, rfl, firstAbsent_eq_none.2 fun f hf => ?_⟩
  have := hi hf
  simp only [List.mem_cons, List.not_mem_nil, or_false] at this
  obtain rfl | rfl | rfl := this <;> rfl

theorem test_witness_DecodeUndoesEncode : (Instr.illegalKeyschedBit7 0b11111).wf = true ∧
    (Instr.illegalDecblkBit4 0b00010).wf = true ∧ (Instr.encRsvMode 3 3 true).wf = true ∧
    (Instr.decRsvPad 0 false).wf = true := by decide

theorem test_witness_StepRunsLatchedCommand :
    ∃ s d, s.phase = .busy ∧ s.latch = some d ∧ s.host.pending = [] ∧
      (withHost s [.wait]).host.pending = .wait :: [] :=
  ⟨messageState key0.toList none abc, _, rfl, rfl, rfl, rfl⟩

theorem test_witness_EngineWaitsForIssue : State.reset.phase ≠ .busy ∧
    State.reset.host.pending = [] ∧ (doneState (.message abc)).phase ≠ .busy ∧
    (withHost State.reset [.wait]).host.pending = .wait :: [] := by decide

/-- Both clauses: every field there, and the IV missing. -/
theorem test_witness_IssueLatchesDescriptor :
    let s := withHost (doneState (.message abc)) [.issue msgDescriptor]
    let d : Descriptor := { msgDescriptor with iv := none }
    s.phase ≠ .busy ∧ s.host.pending = .issue msgDescriptor :: [] ∧
    firstOverCap s.caps msgDescriptor = none ∧
    (∀ f ∈ fieldsRead (decode msgDescriptor.cmd), msgDescriptor.supplies f = true) ∧
    firstOverCap s.caps d = none ∧
    ∃ f ∈ fieldsRead (decode d.cmd), d.supplies f = false :=
  ⟨by decide, rfl, rfl, by decide, rfl, .iv, by decide, rfl⟩

theorem test_witness_IssueInBusyHasNoStep :
    let s := withHost (messageState key0.toList none abc) [.issue msgDescriptor]
    s.phase = .busy ∧ s.host.pending = .issue msgDescriptor :: [] := ⟨rfl, rfl⟩

theorem test_witness_ResetDiscardsCommand :
    let s := withHost (messageState key0.toList none abc) [.reset]
    s.host.pending = .reset :: [] ∧ s.phase = .busy := ⟨rfl, rfl⟩

theorem test_witness_StatusByPhase : State.reset.phase = .idle ∧
    (messageState key0.toList none abc).phase = .busy ∧
    (doneState (.failed .illegalCommand)).phase = .done ∧
    (doneState (.failed .illegalCommand)).resp.err = some (.error .illegalCommand) := by decide

/-- A read of STATUS while BUSY, of `OUT` in DONE, of `OUT` outside DONE, of a working register and
of a latched space. -/
theorem test_witness_ReadsOnlyInDone :
    (∃ t, step (withHost (messageState key0.toList none abc) [.read .status]) = .next t) ∧
    (∃ t, step (withHost (doneState (.message abc)) [.read .out]) = .next t) ∧
    (withHost State.reset [.read .status]).status = some 0x00 ∧
    (withHost (messageState key0.toList none abc) [.read .status]).status = some 0x10 ∧
    (withHost (doneState (.message abc)) [.read .status]).status = some 0x20 ∧
    (withHost State.reset [.read .out]).phase ≠ .done ∧
    (withHost State.reset [.read (.working .PREV)]).host.pending = .read (.working .PREV) :: [] ∧
    (withHost State.reset [.read (.bytes .key 0 0)]).host.pending = .read (.bytes .key 0 0) :: [] :=
  ⟨⟨_, rfl⟩, ⟨_, rfl⟩, rfl, rfl, rfl, by decide, rfl, rfl⟩

/-- Each field holding a value, and one that holds none. -/
theorem test_witness_DoneReadsReturnTheResponse :
    (withHost (doneState (.message abc)) [.read .err]).phase = .done ∧
    (doneState (.message abc)).resp.err = some .ok ∧
    (doneState (.message abc)).resp.olen = some 3 ∧ (doneState (.message abc)).resp.out = some abc ∧
    (doneState (.ofBlock key0)).resp.blkout = some key0 ∧
    (doneState (.schedule (.replicate 32 0))).resp.rkout = some (.replicate 32 0) ∧
    (doneState (.message abc)).resp.rkout = none := ⟨rfl, rfl, rfl, rfl, rfl, rfl, rfl⟩

/-- A read that ends where `OUT` or `BLKOUT` ends, and one byte further; and spaces without a value. -/
theorem test_witness_ByteReadsOfOutput :
    let s := withHost (doneState (.message abc)) [.read (.bytes .out 1 2)]
    let b := withHost (doneState (.ofBlock key0)) [.read (.bytes .blkout 12 4)]
    (s.phase = .done ∧ s.resp.out = some abc ∧ 1 + 2 ≤ abc.length ∧ abc.length < 2 + 2) ∧
    (b.phase = .done ∧ b.resp.blkout = some key0 ∧ 12 + 4 ≤ 16 ∧ 16 < 13 + 4) ∧
    s.resp.blkout = none ∧ b.resp.out = none :=
  ⟨⟨rfl, rfl, by decide, by decide⟩, ⟨rfl, rfl, by decide, by decide⟩, rfl, rfl⟩

/-- R30, R34: the last four bytes of `BLKOUT`. -/
theorem test_host_reads_blkout :
    step (withHost (doneState (.ofBlock key0)) [.read (.bytes .blkout 12 4)]) =
      .next { doneState (.ofBlock key0) with
        host := ⟨[], some (.bytes (key0.toList.drop 12))⟩ } := rfl

/-- R14, R110, R111: `padLen` holds 13 after adding to 3 bytes, and the last byte after removing. -/
theorem test_padLen :
    ((pkcs7AddUnit abc .noValue).toOption.bind (·.padLen)) = some 13 ∧
    ((pkcs7RemoveUnit (abc ++ List.replicate 13 0x0D) .noValue).toOption.map
      fun r => (r.1, r.2.padLen)) = some (abc, some 13) := by decide

/-- A write at the end of `OUT` and one past it; the last byte of a `BLKOUT` and one past it; the
whole of a `BLKOUT` that holds no value. -/
theorem test_witness_MemWriteSetsTheBytes : 3 ≤ ((Response.message abc).out.getD []).length ∧
    ((memWrite .out 3 [7] (.message abc)).toOption.bind (·.out)) = some (abc ++ [7]) ∧
    ((Response.message abc).out.getD []).length < 4 ∧
    (Response.ofBlock key0).blkout = some key0 ∧ 15 + [(7 : Byte)].length ≤ 16 ∧
    16 < 16 + [(7 : Byte)].length ∧
    Response.noValue.blkout = none ∧ key0.toList.length = 16 := by decide

/-- R35 with R19: into a `BLKOUT` that holds no value 16 bytes go at offset 0 and nowhere else. -/
theorem test_memWrite_blkout : memWrite .blkout 0 key0.toList .noValue = .ok (
      { Response.noValue with blkout := some key0 }) ∧
    memWrite .blkout 5 key0.toList .noValue = .error (.outside .blkout 5 16) ∧
    memWrite .blkout 17 [] (.ofBlock key0) = .error (.outside .blkout 17 0) := by decide

theorem test_witness_BlocksMakeUpTheBuffer : (key0.toList ++ key0.toList).length % 16 = 0 ∧
    (0 : Nat) < (key0.toList ++ key0.toList).length / 16 ∧ (15 : Nat) < 16 := by decide

theorem test_witness_RotationMovesBits : (31 : Nat) < 32 ∧
    (rotl32 0x80000000 1).getLsbD ((31 + 1) % 32) = true := by decide

/-- The table itself is injective. -/
theorem test_witness_TauSubstitutesBytes :
    ∀ a b : Byte, sboxAt romTables a = sboxAt romTables b → a = b := by
  have h : ∀ a : Byte, (sboxBytes.idxOf (sboxAt romTables a)) = a.toNat := by decide +kernel
  intro a b hab
  exact BitVec.eq_of_toNat_eq (by rw [← h a, ← h b, hab])

/-- A key of 16 bytes, and of 15 and 17. -/
theorem test_witness_KeyschedExpandsTheKey :
    RunsKey (messageState key0.toList none abc) key0.toList ∧
    RunsKey (messageState key15 none abc) key15 ∧ key15.length ≠ 16 ∧
    (key0.toList ++ [0]).length ≠ 16 :=
  ⟨⟨rfl, _, rfl, rfl⟩, ⟨rfl, _, rfl, rfl⟩, by decide, by decide⟩

theorem test_witness_KeyExpansionIsInjective :
    keyScheduleOf romTables key0 = keyScheduleOf romTables key0 ∧
    ∃ k : Block, k ≠ key0 := ⟨rfl, iv0, by decide⟩

/-- For `EncblkRunsTheRounds`, `DecblkRunsTheRoundsReversed` and the second part of
`DecblkUndoesEncblk`. -/
theorem test_witness_blocks :
    let ks : Schedule := .ofFn fun i => BitVec.ofNat 32 i.val
    let ks' : Schedule := .ofFn fun i => BitVec.ofNat 32 (31 - i.val)
    (∀ i (h : i < 32), ks'[i] = ks[31 - i]) ∧
    (blockState key0 ks').rom = (blockState key0 ks).rom ∧
    RunsBlock (blockState key0 ks) key0 ks ∧ RunsBlock (blockState key0 ks') key0 ks' :=
  ⟨by decide, rfl, blockState_runs _ _, blockState_runs _ _⟩

/-- The block the first command gives is the one the second is run on, both ways round. -/
theorem test_witness_DecblkUndoesEncblk (ks : Schedule) :
    ∀ p ∈ [(Instr.encblk, KeyOrder.forward), (.decblk, .reverse)],
    let c := cryptOf romTables key0 (p.2.schedule ks)
    RunsBlock (blockState key0 ks) key0 ks ∧ RunsBlock (blockState c ks) c ks ∧
    ∃ t, exec p.1 (blockState key0 ks) = .next t ∧ t.resp.blkout = some c := by
  intro p hp
  refine ⟨blockState_runs _ _, blockState_runs _ _, ?_⟩
  simp only [List.mem_cons, List.not_mem_nil, or_false] at hp
  obtain rfl | rfl := hp
  · exact ⟨_, (exec_kind .encblk _).trans (runBlock_busy (ks := ks) .forward rfl rfl rfl rfl), rfl⟩
  · exact ⟨_, (exec_kind .decblk _).trans (runBlock_busy (ks := ks) .reverse rfl rfl rfl rfl), rfl⟩

/-- Every padding accepts a message of whole blocks; `NONE` refuses another length. -/
theorem test_witness_EncryptResults : (∀ pad : Padding, ∃ p, padAddOf pad key0.toList = .ok p) ∧
    RunsMessage (messageState key0.toList none key0.toList) key0.toList none key0.toList ∧
    RunsMessage (messageState key0.toList (some iv0.toList) abc) key0.toList (some iv0.toList) abc ∧
    ∃ p, padAddOf .pkcs7 abc = .ok p :=
  ⟨fun pad => by cases pad <;> exact ⟨_, rfl⟩, messageState_runs _ _ _, messageState_runs _ _ _,
    _, rfl⟩

/-- One block of ciphertext. -/
theorem test_witness_DecryptEcbResult (c : Block) :
    let s := messageState key0.toList none c.toList
    let p := (decBlockOf s.rom (keyScheduleOf s.rom key0) c).toList
    RunsMessage s key0.toList none c.toList ∧ c.toList.length % 16 = 0 ∧
    p.length = c.toList.length ∧
    (∀ j : Nat, (blocksOf p)[j]? =
      (blocksOf c.toList)[j]?.map (decBlockOf s.rom (keyScheduleOf s.rom key0))) ∧
    padRemoveOf .none p = .ok p := by
  refine ⟨messageState_runs _ _ _, by simp, by simp, fun j => ?_, rfl⟩
  rw [blocksOf_toList, blocksOf_toList]
  cases j <;> simp

/-- Two blocks of ciphertext. -/
theorem test_witness_DecryptCbcResult (c0 c1 : Block) :
    let data := bytesOf [c0, c1]
    let s := messageState key0.toList (some iv0.toList) data
    let dec := decBlockOf s.rom (keyScheduleOf s.rom key0)
    let p := bytesOf [xor16 (dec c0) iv0, xor16 (dec c1) c0]
    RunsMessage s key0.toList (some iv0.toList) data ∧ data.length % 16 = 0 ∧
    p.length = data.length ∧
    (blocksOf p)[0]? = (blocksOf data)[0]?.map (fun c => xor16 (dec c) iv0) ∧
    (∀ (j : Nat) (c prev : Block), (blocksOf data)[j + 1]? = some c →
      (blocksOf data)[j]? = some prev → (blocksOf p)[j + 1]? = some (xor16 (dec c) prev)) ∧
    padRemoveOf .none p = .ok p := by
  intro data s dec p
  refine ⟨messageState_runs _ _ _, by simp [data],
    by simp [data, p], ?_, fun j c prev hc hp => ?_, rfl⟩
  · simp only [data, p, blocksOf_bytesOf]; rfl
  · simp only [data, p, blocksOf_bytesOf] at hc hp ⊢
    obtain rfl : j = 0 := by
      have := (List.getElem?_eq_some_iff.1 hc).1
      simp only [List.length_cons, List.length_nil] at this
      omega
    simp only [List.getElem?_cons_succ, List.getElem?_cons_zero, Option.some.injEq] at hc hp ⊢
    rw [hc, hp]

theorem test_witness_KeyLengthIsCheckedFirst :
    (∀ i ∈ [Instr.keysched, .encEcbNone false, .decCbcPkcs7 true, .encRsvMode 2 0 true,
      .decRsvPad 1 true], Ready i ⟨0, some key15, some iv0.toList, some abc, none, none⟩
        (messageState key15 (some iv0.toList) abc)) ∧
    kind (.decCbcPkcs7 true) = .decrypt 1#2 1#2 true ∧ key15.length ≠ 16 :=
  ⟨fun i hi => messageState_ready i (by revert i; decide) _ _ _, rfl, by decide⟩

/-- No IV, an IV of 15 bytes and one of 17, and a word outside CBC. -/
theorem test_witness_CbcNeedsA16ByteIv :
    (∀ i ∈ [Instr.encCbcPkcs7 false, .decCbcNone true, .encRsvPad 1 true, .encEcbNone true],
      ∀ iv : List Byte, Ready i ⟨0, some key0.toList, some iv, some abc, none, none⟩
        (messageState key0.toList (some iv) abc)) ∧
    kind (.encCbcPkcs7 false) = .encrypt 1#2 1#2 false ∧
    kind (.decCbcNone true) = .decrypt 1#2 0#2 true ∧
    (iv0.toList.take 15).length ≠ 16 ∧ (iv0.toList ++ [0]).length ≠ 16 ∧
    kind (.encEcbNone true) = .encrypt 0#2 0#2 true ∧ (0#2 : BitVec 2) ≠ 1#2 :=
  ⟨fun i hi iv => messageState_ready i (by revert i; decide) _ _ _, rfl, rfl, by decide, by decide,
    rfl, by decide⟩

/-- Lengths 15 and 17. -/
theorem test_witness_InputLengthIsChecked :
    (∀ data : List Byte, RunsMessage (messageState key0.toList (some iv0.toList) data) key0.toList
      (some iv0.toList) data) ∧ key15.length % 16 ≠ 0 ∧ (key0.toList ++ [0]).length % 16 ≠ 0 :=
  ⟨fun _ => messageState_runs _ _ _, by decide, by decide⟩

/-- The empty ciphertext (D14): its decrypted buffer has no padding. -/
theorem test_witness_BadPaddingIsReported :
    RunsMessage (messageState key0.toList (some iv0.toList) []) key0.toList (some iv0.toList) [] ∧
    ([] : List Byte).length % 16 = 0 ∧
    ∀ (m : List Byte) (n : Nat), 1 ≤ n → n ≤ 16 →
      decChainOf romTables (keyScheduleOf romTables key0) (.cbc iv0) [] ≠
        m ++ List.replicate n (BitVec.ofNat 8 n) := by
  refine ⟨messageState_runs _ _ _, rfl, fun m n h _ he => ?_⟩
  have := congrArg List.length he
  simp [decChainOf, blocksOf, cbcDecBlocks] at this
  omega

/-- For `ReservedModeIsUnsupported` and `ReservedPaddingIsUnsupported`: ECB, and CBC with its IV. -/
theorem test_witness_reserved :
    RunsMessage (messageState key0.toList none abc) key0.toList none abc ∧
    RunsMessage (messageState key0.toList (some iv0.toList) abc) key0.toList (some iv0.toList) abc ∧
    iv0.toList.length = 16 := ⟨messageState_runs _ _ _, messageState_runs _ _ _, rfl⟩

theorem test_witness_IllegalWordsComplete :
    let s := accept ⟨0x05, none, none, none, none, none⟩ State.reset
    kind (.illegalOp5 0) = .illegal ∧ s.phase = .busy ∧
      s.latch = some ⟨0x05, none, none, none, none, none⟩ := ⟨rfl, rfl, rfl⟩

/-- Two descriptors that differ in the IV alone. -/
theorem test_witness_EcbIgnoresTheIv :
    let s := messageState key0.toList none abc
    let s' := messageState key0.toList (some [1, 2, 3]) abc
    s'.rom = s.rom ∧ RunsMessage s key0.toList none abc ∧
      RunsMessage s' key0.toList (some [1, 2, 3]) abc :=
  ⟨rfl, messageState_runs _ _ _, messageState_runs _ _ _⟩

/-- The five causes one by one, and none of them. -/
theorem test_witness_FirstCauseIsReported :
    ∀ c ∈ [(Instr.encCbcNone true, key15, iv0.toList, abc), (.encCbcNone true, key0.toList, abc, abc),
      (.decRsvMode 2 3 true, key0.toList, abc, abc), (.decRsvPad 1 true, key0.toList, iv0.toList, abc),
      (.encCbcNone true, key0.toList, iv0.toList, abc), (.encCbcNone true, key0.toList, iv0.toList, [])],
    Ready c.1 ⟨0, some c.2.1, some c.2.2.1, some c.2.2.2, none, none⟩
      (messageState c.2.1 (some c.2.2.1) c.2.2.2) ∧
    ∃ t, exec c.1 (messageState c.2.1 (some c.2.2.1) c.2.2.2) = .next t := by
  intro c hc
  simp only [List.mem_cons, List.not_mem_nil, or_false] at hc
  obtain rfl | rfl | rfl | rfl | rfl | rfl := hc
  all_goals
    refine ⟨messageState_ready _ (by decide) _ _ _, ?_⟩
    rw [exec_kind]
  · exact ⟨_, runEncrypt_busy rfl rfl rfl⟩
  · exact ⟨_, runEncrypt_busy rfl rfl rfl⟩
  · exact ⟨_, runDecrypt_busy rfl rfl rfl⟩
  · exact ⟨_, runDecrypt_busy rfl rfl rfl⟩
  · exact ⟨_, runEncrypt_busy rfl rfl rfl⟩
  · exact ⟨_, runEncrypt_busy rfl rfl rfl⟩

/-- One block with no padding, in ECB: the ciphertext that comes out is the one decrypted. -/
theorem test_witness_DecryptUndoesEncrypt :
    let s := messageState key0.toList (some iv0.toList) key0.toList
    let c := (encBlockOf s.rom (keyScheduleOf s.rom key0) key0).toList
    RunsMessage s key0.toList (some iv0.toList) key0.toList ∧
    RunsMessage (messageState key0.toList (some iv0.toList) c) key0.toList (some iv0.toList) c ∧
    key0.toList.getLast? ≠ some 0 ∧ key0.toList.length % 16 = 0 ∧
    ∃ t, exec (encInstr false .none false) s = .next t ∧ t.resp.out = some c := by
  refine ⟨messageState_runs _ _ _, messageState_runs _ _ _, by decide, by decide, ?_⟩
  rw [exec_kind]
  refine ⟨_, runEncrypt_busy (mode := 0#2) (pad := 0#2) rfl rfl rfl, ?_⟩
  have h : encryptOf romTables 0#2 0#2 ⟨key0.toList, none, key0.toList⟩ =
      .ok (bytesOf ((blocksOf key0.toList).map
        (encBlockOf romTables (keyScheduleOf romTables key0)))) := rfl
  rw [finish_resp]
  change Response.out (messageResponse (encryptOf romTables 0#2 0#2
    ⟨key0.toList, none, key0.toList⟩)) = _
  rw [h, blocksOf_toList]
  simp only [List.map_cons, List.map_nil, bytesOf_singleton]
  rfl

/-- A mask in a ciphertext block that is not the last, and one in the IV. -/
theorem test_witness_CbcErrorPropagation :
    let mask : Block := (Vector.replicate 16 0).set 0 1
    let cs := [key0, iv0]
    mask ≠ .replicate 16 0 ∧ 0 + 1 < cs.length ∧ cs[0]? = some key0 ∧
    RunsMessage (messageState key0.toList (some iv0.toList) (bytesOf cs)) key0.toList
      (some iv0.toList) (bytesOf cs) ∧
    RunsMessage (messageState key0.toList (some iv0.toList)
      (bytesOf (cs.set 0 (xor16 key0 mask)))) key0.toList (some iv0.toList)
      (bytesOf (cs.set 0 (xor16 key0 mask))) ∧
    RunsMessage (messageState key0.toList (some (xor16 iv0 mask).toList) (bytesOf cs)) key0.toList
      (some (xor16 iv0 mask).toList) (bytesOf cs) :=
  ⟨by decide, by decide, rfl, messageState_runs _ _ _, messageState_runs _ _ _,
    messageState_runs _ _ _⟩

/-- A first run of one block, and the block it ends with as the second run's IV. -/
theorem test_witness_CbcRunsMayBeSplit :
    let iv2 := encBlockOf romTables (keyScheduleOf romTables key0) (xor16 key0 iv0)
    RunsMessage (messageState key0.toList (some iv0.toList) (bytesOf [key0] ++ abc)) key0.toList
      (some iv0.toList) (bytesOf [key0] ++ abc) ∧
    RunsMessage (messageState key0.toList (some iv0.toList) (bytesOf [key0])) key0.toList
      (some iv0.toList) (bytesOf [key0]) ∧
    RunsMessage (messageState key0.toList (some iv2.toList) abc) key0.toList (some iv2.toList) abc ∧
    (cbcEncBlocks romTables (keyScheduleOf romTables key0) iv0 [key0]).getLast?.getD iv0 = iv2 :=
  ⟨messageState_runs _ _ _, messageState_runs _ _ _, messageState_runs _ _ _, rfl⟩

theorem test_witness_padding : (∃ n, 1 ≤ n ∧ n ≤ 16 ∧
      List.replicate 16 0x10 = ([] : List Byte) ++ List.replicate n (BitVec.ofNat 8 n)) ∧
    abc.getLast? ≠ some 0 := ⟨⟨16, by decide, by decide, by decide⟩, by decide⟩

/-- 95_test_vectors.md section 8: `DEC.ECB.PKCS7` of the padded empty message: 16 bytes less. -/
theorem test_decEcbPkcs7 :
    (responseOfStep (.decEcbPkcs7 false) (messageState key0.toList none
      [0x00, 0x2A, 0x8A, 0x4E, 0xFA, 0x86, 0x3C, 0xCA,
        0xD0, 0x24, 0xAC, 0x03, 0x00, 0xBB, 0x40, 0xD2])) = some (.message []) := by
  decide +kernel

theorem responseOfStep_some {i : Instr} {s : State} {r : Response}
    (h : responseOfStep i s = some r) : ∃ t, exec i s = .next t ∧ t.resp = r := by
  unfold responseOfStep at h
  split at h
  · exact ⟨_, ‹_›, by simpa using h⟩
  · cases h
  · cases h

/-- Each padding, and each direction, has a case that ends with an `OUT`. -/
theorem test_witness_OutputLengths :
    (∀ pad : Padding, ∃ t, exec (encInstr false pad false) (messageState key0.toList none []) =
      .next t ∧ t.resp.out.isSome = true) ∧
    (∃ t, exec (decInstr true .zero true) (messageState key0.toList (some iv0.toList) []) =
      .next t ∧ t.resp.out.isSome = true) ∧
    (∃ t, exec (decInstr true .none true) (messageState key0.toList (some iv0.toList) []) =
      .next t ∧ t.resp.out.isSome = true) ∧
    ∃ d t, exec (decInstr false .pkcs7 false) (messageState key0.toList none d) = .next t ∧
      t.resp.out.isSome = true := by
  refine ⟨fun pad => ?_, ⟨_, (exec_kind _ _).trans (runDecrypt_busy (mode := 1#2) (pad := 2#2)
    (ivp := true) rfl rfl rfl), rfl⟩, ⟨_, (exec_kind _ _).trans (runDecrypt_busy (mode := 1#2)
    (pad := 0#2) (ivp := true) rfl rfl rfl), rfl⟩, ?_⟩
  rotate_left
  · obtain ⟨t, ht, hr⟩ := responseOfStep_some test_decEcbPkcs7
    exact ⟨_, t, ht, by rw [hr]; rfl⟩
  cases pad
  · exact ⟨_, (exec_kind _ _).trans (runEncrypt_busy (mode := 0#2) (pad := 0#2) (ivp := false)
      rfl rfl rfl), rfl⟩
  · exact ⟨_, (exec_kind _ _).trans (runEncrypt_busy (mode := 0#2) (pad := 1#2) (ivp := false)
      rfl rfl rfl), rfl⟩
  · exact ⟨_, (exec_kind _ _).trans (runEncrypt_busy (mode := 0#2) (pad := 2#2) (ivp := false)
      rfl rfl rfl), rfl⟩

/-- For `ErrorLeavesNothing` and `CommandFrame`. -/
theorem test_witness_error :
    ∃ t, exec (.illegalOp7 0) (messageState key15 none abc) = .next t ∧
      t.resp.err = some (.error .illegalCommand) :=
  ⟨_, (exec_kind _ _).trans (runIllegal_busy rfl rfl), rfl⟩

/-- A descriptor ready for each kind of command. -/
theorem test_witness_EveryCommandCompletes :
    Ready .keysched msgDescriptor (accept msgDescriptor State.reset) ∧
    Ready .decblk blkDescriptor (accept blkDescriptor State.reset) ∧
    Ready (.encCbcPkcs7 true) msgDescriptor (accept msgDescriptor State.reset) ∧
    Ready (.decRsvPad 1 true) msgDescriptor (accept msgDescriptor State.reset) ∧
    Ready (.illegalOp6 3) blkDescriptor (accept blkDescriptor State.reset) :=
  ⟨⟨rfl, rfl, rfl⟩, ⟨rfl, rfl, rfl⟩, ⟨rfl, rfl, rfl⟩, ⟨rfl, rfl, rfl⟩, ⟨rfl, rfl, rfl⟩⟩

/-- `KEYSCHED` with two descriptors that agree in `KEY` alone. -/
theorem test_witness_ResponseIgnoresUnreadFields :
    let d : Descriptor := { blkDescriptor with key := msgDescriptor.key }
    Ready .keysched msgDescriptor (accept msgDescriptor State.reset) ∧
    Ready .keysched d (accept d State.reset) ∧
    (∀ f ∈ fieldsRead .keysched, sameField msgDescriptor d f) ∧ msgDescriptor ≠ d :=
  ⟨⟨rfl, rfl, rfl⟩, ⟨rfl, rfl, rfl⟩, fun f hf => by
    simp only [fieldsRead, List.mem_singleton] at hf; subst hf; rfl, by decide⟩

/-- The invariant in each phase. -/
theorem test_witness_StepKeepsInv : Inv State.reset ∧ Inv (accept msgDescriptor State.reset) ∧
    Inv (doneState (.message abc)) ∧ (∃ t, step State.reset = .next t) ∧
    ∃ t, step (accept msgDescriptor State.reset) = .next t :=
  ⟨⟨rfl, rfl, rfl, rfl, rfl⟩, ⟨rfl, rfl, rfl, rfl, _, rfl, rfl, rfl⟩, ⟨rfl, rfl, rfl, rfl, rfl, rfl⟩,
    ⟨_, rfl⟩, _, (show step (accept msgDescriptor State.reset) = exec (.encCbcPkcs7 true)
      (accept msgDescriptor State.reset) from rfl).trans ((exec_kind _ _).trans
        (runEncrypt_busy (mode := 1#2) (pad := 1#2) (ivp := true) rfl rfl rfl))⟩

theorem test_witness_EngineIsNeverStuck : Inv (accept msgDescriptor State.reset) ∧
    (accept msgDescriptor State.reset).host.pending = [] ∧
    Inv (withHost State.reset [.reset]) ∧ Inv (withHost State.reset [.wait]) :=
  ⟨⟨rfl, rfl, rfl, rfl, _, rfl, rfl, rfl⟩, rfl, ⟨rfl, rfl, rfl, rfl, rfl⟩, ⟨rfl, rfl, rfl, rfl, rfl⟩⟩

theorem test_witness_IssuedCommandIsAnswered :
    let s := withHost State.reset [.issue msgDescriptor, .wait, .read .out]
    Inv s ∧ s.phase ≠ .busy ∧ s.host.pending = .issue msgDescriptor :: .wait :: [.read .out] ∧
    firstOverCap s.caps msgDescriptor = none ∧
    ∀ f ∈ fieldsRead (decode msgDescriptor.cmd), msgDescriptor.supplies f = true :=
  ⟨⟨rfl, rfl, rfl, rfl, rfl⟩, by decide, rfl, rfl, by decide⟩

theorem test_witness_TablesAreNeverWritten : (∃ t, step State.reset = .next t) ∧
    ∀ rest, State.reset.host.pending ≠ .reset :: rest := ⟨⟨_, rfl⟩, fun _ h => by cases h⟩

/-- Two instances, one of which takes a reset and the other an issue. -/
theorem test_witness_InstancesAreIndependent :
    let sys := [withHost State.reset [.reset], withHost State.reset [.issue msgDescriptor]]
    ∃ (h0 : 0 < sys.length) (h1 : 1 < sys.length) (sys1 sys2 : List State),
      systemStep sys ⟨0, h0⟩ = .next sys1 ∧ systemStep sys ⟨1, h1⟩ = .next sys2 :=
  ⟨by decide, by decide, _, _, rfl, rfl⟩

/-- An instance that answers beside one whose own action is refused. -/
theorem test_witness_InstancesAreIndependent_besideStop :
    let sys := [withHost State.reset [.reset], withHost State.reset [.read .out]]
    ∃ (h0 : 0 < sys.length) (h1 : 1 < sys.length) (sys1 : List State),
      systemStep sys ⟨0, h0⟩ = .next sys1 ∧
      systemStep sys ⟨1, h1⟩ = .refused (.readOutsideDone .out) :=
  ⟨by decide, by decide, _, rfl, rfl⟩

/-- R5: `NINST` is at least 1. -/
theorem test_ninst_at_least_1 : Config.ninstLegal 0 = false ∧ Config.ninstLegal 1 = true ∧
    systemLegal [] = false ∧ systemLegal [State.reset] = true := by decide

end Sys2Proof.Tests
end

/-! SUPPORT. `exec` as one function of the latched descriptor and the tables, and the statements of
10_state.md about every command, which follow from it. -/

namespace Sys2Proof.Machine

/-- R26 `Exec` with the missing field named: `responseOf`, or the field the command lacks. -/
def execResult (rom : Rom) (i : Instr) (d : Descriptor) : Except DescField Response :=
  match kind i with
  | .keysched => (keyOperand d).map (keyschedResponse rom)
  | .block order => (blockOperands d).map fun o => .ofBlock (cryptOf rom o.1 (order.schedule o.2))
  | .encrypt mode pad ivp =>
    (msgOperands mode ivp d).map fun ops => messageResponse (encryptOf rom mode pad ops)
  | .decrypt mode pad ivp =>
    (msgOperands mode ivp d).map fun ops => messageResponse (decryptOf rom mode pad ops)
  | .illegal => .ok (.failed .illegalCommand)

theorem toOption_exceptMap {ε α β : Type} (x : Except ε α) (f : α → β) :
    (x.map f).toOption = x.toOption.map f := by
  cases x <;> rfl

theorem toOption_eq_some {ε α : Type} {x : Except ε α} {a : α} :
    x.toOption = some a ↔ x = .ok a := by
  cases x <;> simp [Except.toOption]

theorem responseOf_eq_toOption (rom : Rom) (i : Instr) (d : Descriptor) :
    responseOf rom i d = (execResult rom i d).toOption := by
  unfold responseOf execResult
  cases kind i with
  | keysched => exact (toOption_exceptMap _ _).symm
  | block order => exact (toOption_exceptMap _ _).symm
  | encrypt mode pad ivp => exact (toOption_exceptMap _ _).symm
  | decrypt mode pad ivp => exact (toOption_exceptMap _ _).symm
  | illegal => rfl

/-- A run that completes with `f` of its operands is the frame over the descriptor alone. -/
theorem runCommand_eq_map {α : Type} {s : State} {operands : Descriptor → Except DescField α}
    {run : α → Except Stop Response} {f : α → Response}
    (hrun : ∀ a, complete s (run a) = .next (finish (f a) s)) :
    runCommand s operands run = runCommand s (fun d => (operands d).map f) .ok := by
  unfold runCommand
  cases s.phase with
  | idle => rfl
  | done => rfl
  | busy =>
    cases s.latch with
    | none => rfl
    | some d =>
      dsimp only
      cases operands d with
      | error f => rfl
      | ok a => exact hrun a

/-- R26: every command is the frame around `Exec` of its descriptor and the tables; no working
register and no earlier response enters it. -/
theorem exec_eq_runCommand (i : Instr) (s : State) :
    exec i s = runCommand s (execResult s.rom i) .ok := by
  rw [exec_kind]
  unfold execResult
  cases kind i with
  | keysched =>
    refine runCommand_eq_map fun key => ?_
    rw [keysched_spec, keyschedResponse]
    cases asBlock key <;> rfl
  | block order => exact runCommand_eq_map fun ⟨b, ks⟩ => by rw [blockCommand_spec]; rfl
  | encrypt mode pad ivp =>
    exact runCommand_eq_map fun ops => by rw [encrypt_spec, complete_runResult]
  | decrypt mode pad ivp =>
    exact runCommand_eq_map fun ops => by rw [decrypt_spec, complete_runResult]
  | illegal => exact runCommand_eq_map (f := fun _ => .failed .illegalCommand) fun _ => rfl

/-- R25: a descriptor that supplies the fields a command reads gives the command a response. -/
theorem execResult_of_supplied (rom : Rom) {i : Instr} {d : Descriptor}
    (h : firstAbsent d (fieldsRead i) = none) : ∃ r, execResult rom i d = .ok r := by
  rw [fieldsRead_kind] at h
  unfold execResult
  cases hk : kind i with
  | keysched =>
    simp only [hk, firstAbsent_eq_none] at h
    obtain ⟨key, hkey⟩ := Option.isSome_iff_exists.1 (h .key (by simp))
    exact ⟨_, by simp only [keyOperand, hkey]; rfl⟩
  | block order =>
    simp only [hk, firstAbsent_eq_none] at h
    obtain ⟨b, hb⟩ := Option.isSome_iff_exists.1 (h .block (by simp))
    obtain ⟨ks, hks⟩ := Option.isSome_iff_exists.1 (h .rk (by simp))
    exact ⟨_, by simp only [blockOperands, hb, hks]; rfl⟩
  | encrypt mode pad ivp =>
    simp only [hk] at h
    obtain ⟨key, data, -, -, ho⟩ := msgOperands_of_supplied h
    exact ⟨_, by simp only [ho]; rfl⟩
  | decrypt mode pad ivp =>
    simp only [hk] at h
    obtain ⟨key, data, -, -, ho⟩ := msgOperands_of_supplied h
    exact ⟨_, by simp only [ho]; rfl⟩
  | illegal => exact ⟨_, rfl⟩

/-- R26: a command whose fields are latched completes with the response of its descriptor. -/
theorem exec_of_ready {i : Instr} {d : Descriptor} {s : State} (h : Ready i d s) :
    ∃ r, execResult s.rom i d = .ok r ∧ exec i s = .next (finish r s) := by
  obtain ⟨hp, hl, ha⟩ := h
  obtain ⟨r, hr⟩ := execResult_of_supplied s.rom ha
  exact ⟨r, hr, by rw [exec_eq_runCommand, runCommand_busy hp hl hr]; rfl⟩

/-- Settles O51: the response is `execResult` of the latched descriptor, and `finish` writes it. -/
theorem everyCommandCompletes : Obligations.EveryCommandCompletes := by
  intro i d s h
  obtain ⟨r, hr, he⟩ := exec_of_ready h
  exact ⟨r, by rw [responseOf_eq_toOption, hr]; rfl, he⟩

/-- The frame around a run that has its response stops only for want of BUSY, of a latched
descriptor or of a field. -/
theorem runCommand_ok_cases (s : State) (x : Descriptor → Except DescField Response) :
    (∃ t, runCommand s x .ok = .next t) ∨ runCommand s x .ok = .refused .notBusy ∨
      runCommand s x .ok = .refused .latchNoValue ∨
      ∃ f, runCommand s x .ok = .refused (.fieldAbsent f) := by
  unfold runCommand
  cases s.phase with
  | idle => exact .inr (.inl rfl)
  | done => exact .inr (.inl rfl)
  | busy =>
    cases s.latch with
    | none => exact .inr (.inr (.inl rfl))
    | some d =>
      dsimp only
      cases x d with
      | error f => exact .inr (.inr (.inr ⟨f, rfl⟩))
      | ok r => exact .inl ⟨_, rfl⟩

/-- Settles O52: the frame of a command has three refusals, none of a register, and no fault. -/
theorem unitsWriteBeforeTheyRead : Obligations.UnitsWriteBeforeTheyRead := by
  intro i s
  rw [exec_eq_runCommand]
  obtain ⟨t, h⟩ | h | h | ⟨f, h⟩ := runCommand_ok_cases s (execResult s.rom i) <;> simp [h]

/-- The frame overwrites the working registers and the response without reading them. -/
theorem runCommand_stale (s : State) (w : Work) (r : Response)
    (x : Descriptor → Except DescField Response) :
    runCommand { s with work := w, resp := r } x .ok = runCommand s x .ok := by
  unfold runCommand
  cases s.phase with
  | idle => rfl
  | done => rfl
  | busy =>
    cases s.latch with
    | none => rfl
    | some d =>
      dsimp only
      cases x d <;> rfl

/-- Settles O54: `execResult` is of the tables and the descriptor, and the frame reads neither. -/
theorem commandIgnoresStaleState : Obligations.CommandIgnoresStaleState := by
  intro i s w r
  rw [exec_eq_runCommand, exec_eq_runCommand, runCommand_stale]

/-- R54: the operands of a `MSG` word are the fields it reads. -/
theorem msgOperands_congr {mode : BitVec 2} {ivp : Bool} {d d' : Descriptor}
    (h : ∀ f ∈ msgFields mode ivp, sameField d d' f) :
    msgOperands mode ivp d = msgOperands mode ivp d' := by
  have hk : d.key = d'.key := h .key (by unfold msgFields; split <;> simp)
  have hd : d.data = d'.data := h .data (by unfold msgFields; split <;> simp)
  unfold msgOperands
  rw [hk, hd]
  by_cases hc : mode = 1#2 ∧ ivp = true
  · have hv : d.iv = d'.iv := h .iv (by simp [msgFields, hc])
    rw [hv]
  · simp only [hc, if_false]

/-- R17: `Exec` looks at the fields the command reads and at no other. -/
theorem execResult_congr (rom : Rom) {i : Instr} {d d' : Descriptor}
    (h : ∀ f ∈ fieldsRead i, sameField d d' f) : execResult rom i d = execResult rom i d' := by
  rw [fieldsRead_kind] at h
  unfold execResult
  cases hk : kind i with
  | keysched =>
    simp only [hk] at h
    have hkey : d.key = d'.key := h .key (by simp)
    simp only [keyOperand, hkey]
  | block order =>
    simp only [hk] at h
    have hb : d.block = d'.block := h .block (by simp)
    have hks : d.rk = d'.rk := h .rk (by simp)
    simp only [blockOperands, hb, hks]
  | encrypt mode pad ivp =>
    simp only [hk] at h
    simp only [msgOperands_congr h]
  | decrypt mode pad ivp =>
    simp only [hk] at h
    simp only [msgOperands_congr h]
  | illegal => rfl

/-- Settles O53: both responses are `execResult`, which agrees on the two descriptors. -/
theorem responseIgnoresUnreadFields : Obligations.ResponseIgnoresUnreadFields := by
  intro i d d' s s' h h' hrom hf
  obtain ⟨r, hr, he⟩ := exec_of_ready h
  obtain ⟨r', hr', he'⟩ := exec_of_ready h'
  rw [hrom, ← execResult_congr s.rom hf, hr] at hr'
  cases hr'
  exact ⟨_, _, he, he', rfl⟩

/-- R19: the forms a response can have are well shaped. -/
theorem CommandResponse.wellShaped {r : Response} (h : CommandResponse r) :
    r.wellShaped = true := by
  cases h with
  | schedule ks => rfl
  | ofBlock b => rfl
  | message b => simp [Response.wellShaped, Response.message]
  | failed e => rfl

/-- Settles O50: a command that answers is `finish` of a response of one of the four forms. -/
theorem commandFrame : Obligations.CommandFrame := by
  intro i s t h
  obtain ⟨d, r, hp, -, -, hr, rfl⟩ := exec_next h
  exact ⟨hp, rfl, rfl, rfl, hr.wellShaped, rfl, rfl, rfl⟩

end Sys2Proof.Machine

/-! SUPPORT. The step, by what the host does next: the statements of 10_state.md about the phases, the
issue, the host's reads and the values after reset. -/

namespace Sys2Proof.Machine

/-! ### The step and the engine's turn -/

theorem step_idle {s : State} (h : s.host.pending = []) : step s = engineTurn s := by
  simp only [step, h]

theorem step_wait {s : State} {rest : List HostAction} (h : s.host.pending = .wait :: rest) :
    step s = engineTurn (s.tookTurn rest) := by
  simp only [step, h]

theorem step_issue {s : State} {d : Descriptor} {rest : List HostAction}
    (h : s.host.pending = .issue d :: rest) : step s = issue d (s.tookTurn rest) := by
  simp only [step, h]

theorem step_read {s : State} {f : ReadField} {rest : List HostAction}
    (h : s.host.pending = .read f :: rest) : step s = hostRead f (s.tookTurn rest) := by
  simp only [step, h]

theorem step_reset {s : State} {rest : List HostAction} (h : s.host.pending = .reset :: rest) :
    step s = .next (resetEngine (s.tookTurn rest)) := by
  simp only [step, h]

theorem engineTurn_busy {s : State} {d : Descriptor} (hp : s.phase = .busy)
    (hl : s.latch = some d) : engineTurn s = exec (decode d.cmd) s := by
  simp only [engineTurn, hp, hl]

theorem engineTurn_notBusy {s : State} (hp : s.phase ≠ .busy) : engineTurn s = .next s := by
  unfold engineTurn
  cases h : s.phase with
  | idle => rfl
  | busy => exact absurd h hp
  | done => rfl

/-- Settles O6: with no host action, or a wait, the step is the engine's turn. -/
theorem stepRunsLatchedCommand : Obligations.StepRunsLatchedCommand := by
  intro s d hp hl
  exact ⟨fun h => by rw [step_idle h, engineTurn_busy hp hl],
    fun rest h => by rw [step_wait h, engineTurn_busy (s := s.tookTurn rest) hp hl]⟩

/-! ### The issue -/

theorem issue_busy {s : State} (d : Descriptor) (hp : s.phase = .busy) :
    issue d s = .refused .issueWhileBusy := by
  simp only [issue, hp]

/-- R25: outside BUSY, within the capacities, an issue is decided by the fields that are absent. -/
theorem issue_notBusy {s : State} {d : Descriptor} (hp : s.phase ≠ .busy)
    (hc : firstOverCap s.caps d = none) :
    issue d s = (firstAbsent d (fieldsRead (decode d.cmd))).elim (.next (accept d s))
      fun f => .refused (.fieldAbsent f) := by
  unfold issue
  rw [hc]
  cases h : s.phase with
  | busy => exact absurd h hp
  | idle => cases firstAbsent d (fieldsRead (decode d.cmd)) <;> rfl
  | done => cases firstAbsent d (fieldsRead (decode d.cmd)) <;> rfl

/-- R25: the absent field that is named is one that is read and not supplied. -/
theorem firstAbsent_eq_some {d : Descriptor} {fields : List DescField} {f : DescField}
    (h : firstAbsent d fields = some f) : f ∈ fields ∧ d.supplies f = false :=
  ⟨List.mem_of_find?_eq_some h, by simpa using List.find?_some h⟩

/-- Settles O9: `issue` looks at the phase first. -/
theorem issueInBusyHasNoStep : Obligations.IssueInBusyHasNoStep := by
  intro s d rest hp h
  exact (step_issue h).trans (issue_busy (s := s.tookTurn rest) d hp)

/-- Settles O8, by whether the first absent field exists. -/
theorem issueLatchesDescriptor : Obligations.IssueLatchesDescriptor := by
  intro s d rest hp h hc
  have hstep := (step_issue h).trans (issue_notBusy (s := s.tookTurn rest) hp hc)
  constructor
  · intro hall
    rw [hstep, firstAbsent_eq_none.2 hall]
    rfl
  · rintro ⟨g, hg, habsent⟩
    cases hf : firstAbsent d (fieldsRead (decode d.cmd)) with
    | none => simp [firstAbsent_eq_none.1 hf g hg] at habsent
    | some f =>
      obtain ⟨hmem, hno⟩ := firstAbsent_eq_some hf
      exact ⟨f, hmem, hno, by rw [hstep, hf]; rfl⟩

/-! ### The host's reads -/

theorem readResponse_notDone {s : State} (f : ReadField) (v : Option ReadValue)
    (hp : s.phase ≠ .done) : readResponse f v s = .refused (.readOutsideDone f) := by
  unfold readResponse
  cases h : s.phase with
  | idle => rfl
  | busy => rfl
  | done => exact absurd h hp

theorem readResponse_done {s : State} (f : ReadField) (v : Option ReadValue)
    (hp : s.phase = .done) :
    readResponse f v s = v.elim (.refused (.readNoValue f)) fun v => .next (giveHost v s) := by
  unfold readResponse
  rw [hp]
  cases v <;> rfl

theorem readBytes_notDone {s : State} (sp : Space) (addr n : Nat) (hp : s.phase ≠ .done) :
    readBytes sp addr n s = .refused (.readOutsideDone (.bytes sp addr n)) := by
  unfold readBytes
  cases h : s.phase with
  | idle => rfl
  | busy => rfl
  | done => exact absurd h hp

theorem hostRead_status {s : State} {v : Byte} (h : s.status = some v) :
    hostRead .status s = .next (giveHost (.status v) s) := by
  simp only [hostRead, h]

/-- R27: outside DONE every field but `STATUS` is refused. -/
theorem hostRead_notDone {s : State} {f : ReadField} (hf : f ≠ .status) (hp : s.phase ≠ .done) :
    ∃ r, hostRead f s = .refused r := by
  cases f with
  | status => exact absurd rfl hf
  | err => exact ⟨_, readResponse_notDone _ _ hp⟩
  | olen => exact ⟨_, readResponse_notDone _ _ hp⟩
  | out => exact ⟨_, readResponse_notDone _ _ hp⟩
  | blkout => exact ⟨_, readResponse_notDone _ _ hp⟩
  | rkout => exact ⟨_, readResponse_notDone _ _ hp⟩
  | working r => exact ⟨_, rfl⟩
  | bytes sp addr n =>
    cases sp with
    | out => exact ⟨_, readBytes_notDone _ _ _ hp⟩
    | blkout => exact ⟨_, readBytes_notDone _ _ _ hp⟩
    | key => exact ⟨_, rfl⟩
    | iv => exact ⟨_, rfl⟩
    | data => exact ⟨_, rfl⟩
    | block => exact ⟨_, rfl⟩

/-- R27: a read that answers is of `STATUS`, or in DONE. -/
theorem hostRead_next_status_or_done {s t : State} {f : ReadField} (h : hostRead f s = .next t) :
    f = .status ∨ s.phase = .done := by
  by_contra hno
  obtain ⟨hf, hp⟩ := not_or.1 hno
  obtain ⟨r, hr⟩ := hostRead_notDone hf hp
  rw [h] at hr
  cases hr

/-- R10, R30: the latched byte spaces are not the host's to read. -/
theorem hostRead_latchedSpace {sp : Space} (addr n : Nat) (s : State) (hout : sp ≠ .out)
    (hblk : sp ≠ .blkout) :
    hostRead (.bytes sp addr n) s = .refused (.notHostReadable (.bytes sp addr n)) := by
  cases sp with
  | out => exact absurd rfl hout
  | blkout => exact absurd rfl hblk
  | key => rfl
  | iv => rfl
  | data => rfl
  | block => rfl

/-- Settles O13: each clause is what `hostRead` says of that field and phase. -/
theorem readsOnlyInDone : Obligations.ReadsOnlyInDone := by
  intro s f rest h
  rw [step_read h]
  refine ⟨fun t ht => ?_, ?_, fun hf hp => hostRead_notDone (s := s.tookTurn rest) hf hp, ?_, ?_⟩
  · obtain ⟨v, rfl⟩ := hostRead_next ht
    exact ⟨hostRead_next_status_or_done (s := s.tookTurn rest) ht, v, rfl⟩
  · rintro v rfl hv
    exact hostRead_status (s := s.tookTurn rest) hv
  · rintro r rfl
    rfl
  · rintro sp addr n rfl hout hblk
    exact hostRead_latchedSpace addr n _ hout hblk

/-- Settles O14: each of the five reads is `readResponse` of its field. -/
theorem doneReadsReturnTheResponse : Obligations.DoneReadsReturnTheResponse := by
  intro s f rest h hp read
  have hread : ∀ v, hostRead f (s.tookTurn rest) = readResponse f v (s.tookTurn rest) → read v := by
    intro v hv
    have hstep := ((step_read h).trans hv).trans
      (readResponse_done (s := s.tookTurn rest) f v hp)
    cases v <;> exact hstep
  refine ⟨?_, ?_, ?_, ?_, ?_⟩ <;> rintro rfl <;> exact hread _ rfl

/-! ### STATUS and the values after reset -/

theorem status_idle {s : State} (hp : s.phase = .idle) : s.status = some 0x00 := by
  simp only [State.status, statusErr, hp]; rfl

theorem status_busy {s : State} (hp : s.phase = .busy) : s.status = some 0x10 := by
  simp only [State.status, statusErr, hp]; rfl

/-- R20: `PHASE` in bits 5:4 over a 4-bit code is `0x20` plus the code. -/
theorem done_statusByte (c : BitVec 4) : 0#2 ++ Phase.done.code ++ c = 0x20 + c.setWidth 8 := by
  revert c; decide

theorem status_done {s : State} {e : Err} (hp : s.phase = .done) (he : s.resp.err = some e) :
    s.status = some (0x20 + e.code.setWidth 8) := by
  simp only [State.status, statusErr, hp, he, Option.map_some]
  rw [done_statusByte]

/-- Settles O12, one lemma for each phase; the codes are by definition. -/
theorem statusByPhase : Obligations.StatusByPhase :=
  ⟨fun _ => ⟨status_idle, status_busy, fun _ => status_done⟩, rfl, rfl, rfl, rfl, rfl, rfl, rfl, rfl⟩

/-- Settles O11: each field of `State.reset`, and no value in each register of `Work.noValue`. -/
theorem resetValues : Obligations.ResetValues := by
  refine ⟨rfl, status_idle rfl, rfl, rfl, fun m h => ?_, fun m h => ?_, fun m h => ?_,
    rfl, rfl, rfl, rfl, rfl, rfl, rfl, rfl⟩ <;>
  exact Vector.getElem_replicate h

end Sys2Proof.Machine

/-! SUPPORT. How long an output can be (45_modes.md R121 to R126), and the invariant of every run: every
step keeps it, and under it the engine's turn answers. -/

namespace Sys2Proof.Machine

/-! ### The length of an output -/

@[simp] theorem cbcEncBlocks_length (rom : Rom) (ks : Schedule) (prev : Block) (bs : List Block) :
    (cbcEncBlocks rom ks prev bs).length = bs.length := by
  induction bs generalizing prev with
  | nil => rfl
  | cons b bs ih => simp [cbcEncBlocks, ih]

@[simp] theorem cbcDecBlocks_length (rom : Rom) (ks : Schedule) (prev : Block) (bs : List Block) :
    (cbcDecBlocks rom ks prev bs).length = bs.length := by
  induction bs generalizing prev with
  | nil => rfl
  | cons b bs ih => simp [cbcDecBlocks, ih]

/-- R121, R123: a mode controller answers the blocks it was given, each replaced. -/
theorem encChainOf_length (rom : Rom) (ks : Schedule) (chain : Chain) (p : List Byte) :
    (encChainOf rom ks chain p).length = 16 * (p.length / 16) := by
  cases chain <;> simp [encChainOf, bytesOf_length]

/-- R122, R124: a mode controller answers the blocks it was given, each replaced. -/
theorem decChainOf_length (rom : Rom) (ks : Schedule) (chain : Chain) (c : List Byte) :
    (decChainOf rom ks chain c).length = 16 * (c.length / 16) := by
  cases chain <;> simp [decChainOf, bytesOf_length]

/-- R110, R112, R114: no padding adds more than one block. -/
theorem padAddOf_length_le {pad : Padding} {b p : List Byte} (h : padAddOf pad b = .ok p) :
    p.length ≤ b.length + 16 := by
  cases pad with
  | none =>
    simp only [padAddOf] at h
    split at h <;> cases h
    omega
  | pkcs7 =>
    cases h
    simp only [pkcs7Add, pkcs7PadLen, List.length_append, List.length_replicate]
    omega
  | zero =>
    cases h
    unfold zeroAdd
    split
    · omega
    · simp only [List.length_append, List.length_replicate]
      omega

theorem pkcs7Strip_length_le {b m : List Byte} {n : Byte} (h : pkcs7Strip b n = some m) :
    m.length ≤ b.length := by
  unfold pkcs7Strip at h
  (repeat' split at h) <;> cases h
  exact List.length_take_le' _ _

theorem zeroRemove_length_le (b : List Byte) : (zeroRemove b).length ≤ b.length := by
  simpa [zeroRemove] using (List.dropWhile_sublist (· == 0) (l := b.reverse)).length_le

/-- R111, R113, R115: removing a padding adds no byte. -/
theorem padRemoveOf_length_le {pad : Padding} {b m : List Byte} (h : padRemoveOf pad b = .ok m) :
    m.length ≤ b.length := by
  cases pad with
  | none => cases h; exact le_rfl
  | pkcs7 =>
    simp only [padRemoveOf] at h
    split at h <;> cases h
    obtain ⟨last, -, hs⟩ := Option.bind_eq_some_iff.1 ‹_›
    exact pkcs7Strip_length_le hs
  | zero => cases h; exact zeroRemove_length_le b

/-- R125: a ciphertext is at most one block longer than the plaintext. -/
theorem encryptOf_length_le {rom : Rom} {mode pad : BitVec 2} {ops : MsgOperands} {c : List Byte}
    (h : encryptOf rom mode pad ops = .ok c) : c.length ≤ ops.data.length + 16 := by
  unfold encryptOf at h
  cases hv : validate mode pad ops with
  | error e => rw [hv] at h; cases h
  | ok sel =>
    cases hp : padAddOf sel.pad ops.data with
    | error e => rw [hv, except_ok_bind, hp] at h; cases h
    | ok p =>
      rw [hv, except_ok_bind, hp] at h
      cases h
      have := padAddOf_length_le hp
      rw [encChainOf_length]
      omega

/-- R126: a plaintext is no longer than the ciphertext. -/
theorem decryptOf_length_le {rom : Rom} {mode pad : BitVec 2} {ops : MsgOperands} {m : List Byte}
    (h : decryptOf rom mode pad ops = .ok m) : m.length ≤ ops.data.length := by
  unfold decryptOf at h
  cases hv : validate mode pad ops with
  | error e => rw [hv] at h; cases h
  | ok sel =>
    rw [hv, except_ok_bind] at h
    split at h
    · have := padRemoveOf_length_le h
      rw [decChainOf_length] at this
      omega
    · cases h

/-- The `DATA` operand is the field `DATA`. -/
theorem msgOperands_data {mode : BitVec 2} {ivp : Bool} {d : Descriptor} {ops : MsgOperands}
    (h : msgOperands mode ivp d = .ok ops) : d.data = some ops.data := by
  unfold msgOperands at h
  (repeat' split at h) <;> cases h <;> assumption

theorem messageResponse_out {x : Except ErrorKind (List Byte)} {b : List Byte}
    (h : (messageResponse x).out = some b) : x = .ok b := by
  cases x with
  | error e => cases h
  | ok c => cases h; rfl

/-- R5, R19: the `OUT` of a command is at most one block longer than its `DATA`. -/
theorem responseOf_out_length_le {rom : Rom} {i : Instr} {d : Descriptor} {r : Response}
    {b : List Byte} (h : responseOf rom i d = some r) (hb : r.out = some b) :
    b.length ≤ (d.data.getD []).length + 16 := by
  unfold responseOf at h
  cases hk : kind i with
  | keysched =>
    simp only [hk, Option.map_eq_some_iff] at h
    obtain ⟨key, -, rfl⟩ := h
    unfold keyschedResponse at hb
    split at hb <;> cases hb
  | block order =>
    simp only [hk, Option.map_eq_some_iff] at h
    obtain ⟨o, -, rfl⟩ := h
    cases hb
  | encrypt mode pad ivp =>
    simp only [hk, encryptResponse, Option.map_eq_some_iff, toOption_eq_some] at h
    obtain ⟨ops, ho, rfl⟩ := h
    rw [msgOperands_data ho]
    exact encryptOf_length_le (messageResponse_out hb)
  | decrypt mode pad ivp =>
    simp only [hk, decryptResponse, Option.map_eq_some_iff, toOption_eq_some] at h
    obtain ⟨ops, ho, rfl⟩ := h
    rw [msgOperands_data ho]
    have := decryptOf_length_le (messageResponse_out hb)
    exact Nat.le_add_right_of_le this
  | illegal =>
    simp only [hk, Option.some.injEq] at h
    subst h
    cases hb

/-- R5: what a descriptor within the capacities says of `DATA`. -/
theorem firstOverCap_none_data {caps : Config.Capacities} {d : Descriptor}
    (h : firstOverCap caps d = none) :
    Config.fitsCap caps.maxLen (d.data.getD []).length = true := by
  unfold firstOverCap at h
  (repeat' split at h) <;> cases h
  simpa using ‹¬ (!Config.fitsCap caps.maxLen _) = true›

/-- R5, R19: the response to a descriptor within the capacities fits the machine. -/
theorem responseOf_fits {rom : Rom} {i : Instr} {d : Descriptor} {r : Response}
    {caps : Config.Capacities} (h : responseOf rom i d = some r)
    (hc : firstOverCap caps d = none) : r.fits caps = true := by
  have hdata := firstOverCap_none_data hc
  unfold Response.fits
  split
  · rename_i b m hb hm
    have hlen := responseOf_out_length_le h hb
    simp only [hm, Config.fitsCap, decide_eq_true_eq] at hdata ⊢
    omega
  · rfl

/-! ### The invariant -/

/-- Settles O55: every clause is a value `State.reset` has; the capacities are unbounded (log 8). -/
theorem resetSatisfiesInv : Obligations.ResetSatisfiesInv :=
  ⟨rfl, rfl, rfl, rfl, rfl⟩

/-- The host's schedule is no part of the invariant. -/
theorem Inv.tookTurn {s : State} (h : Inv s) (rest : List HostAction) : Inv (s.tookTurn rest) :=
  ⟨h.rom, h.caps, h.work, h.phase⟩

theorem Inv.giveHost {s : State} (h : Inv s) (v : ReadValue) : Inv (giveHost v s) :=
  ⟨h.rom, h.caps, h.work, h.phase⟩

theorem Inv.resetEngine {s : State} (h : Inv s) : Inv (resetEngine s) :=
  ⟨rfl, h.caps, rfl, rfl, rfl⟩

/-- R25: an issue keeps the invariant when the descriptor has its fields and fits. -/
theorem Inv.accept {s : State} {d : Descriptor} (h : Inv s) (hc : firstOverCap s.caps d = none)
    (ha : firstAbsent d (fieldsRead (decode d.cmd)) = none) : Inv (accept d s) :=
  ⟨h.rom, h.caps, h.work, rfl, d, rfl, ha, hc⟩

/-- In BUSY the latched descriptor has the fields of its command and fits the capacities. -/
theorem Inv.busy {s : State} (h : Inv s) (hp : s.phase = .busy) :
    ∃ d, Ready (decode d.cmd) d s ∧ firstOverCap s.caps d = none := by
  have hphase := h.phase
  simp only [PhaseInv, hp] at hphase
  obtain ⟨-, d, hl, ha, hc⟩ := hphase
  exact ⟨d, ⟨hp, hl, ha⟩, hc⟩

/-- R26: the completion of the latched command keeps the invariant. -/
theorem Inv.finish {s : State} {i : Instr} {d : Descriptor} {r : Response} (h : Inv s)
    (hc : firstOverCap s.caps d = none) (hr : responseOf s.rom i d = some r)
    (hform : CommandResponse r) : Inv (finish r s) :=
  ⟨h.rom, h.caps, rfl, rfl, hform.wellShaped, responseOf_fits hr hc⟩

/-- R26: the engine's turn keeps the invariant. -/
theorem Inv.engineTurn {s t : State} (h : Inv s) (ht : engineTurn s = .next t) : Inv t := by
  obtain ⟨-, rfl⟩ | ⟨hp, _, -, he⟩ := engineTurn_next ht
  · exact h
  · obtain ⟨d, ⟨-, hl, -⟩, hc⟩ := h.busy hp
    obtain ⟨_, r, -, hl', hr, hform, rfl⟩ := exec_next he
    cases hl.symm.trans hl'
    exact h.finish hc hr hform

/-- Settles O56, by what the host did in the step. -/
theorem stepKeepsInv : Obligations.StepKeepsInv := by
  intro s t h hs
  obtain ⟨-, ht⟩ | ⟨a, rest, -, ha⟩ := step_next hs
  · exact h.engineTurn ht
  · have h' := h.tookTurn rest
    cases a with
    | issue d =>
      obtain ⟨-, hc, habs, rfl⟩ := issue_next ha
      exact h'.accept hc habs
    | read f =>
      obtain ⟨v, rfl⟩ := hostRead_next ha
      exact h'.giveHost v
    | reset =>
      subst ha
      exact h'.resetEngine
    | wait => exact h'.engineTurn ha

/-- R26: under the invariant the engine's turn answers a next state. -/
theorem Inv.engineTurn_answers {s : State} (h : Inv s) : ∃ t, Machine.engineTurn s = .next t := by
  by_cases hp : s.phase = .busy
  · obtain ⟨d, hd, -⟩ := h.busy hp
    obtain ⟨r, -, he⟩ := exec_of_ready hd
    exact ⟨_, (engineTurn_busy hp hd.2.1).trans he⟩
  · exact ⟨s, engineTurn_notBusy hp⟩

/-- Settles O57: the three cases are two turns of the engine and a reset. -/
theorem engineIsNeverStuck : Obligations.EngineIsNeverStuck := by
  intro s h hs
  obtain hidle | ⟨rest, hwait | hreset⟩ := hs
  · rw [step_idle hidle]
    exact h.engineTurn_answers
  · rw [step_wait hwait]
    exact (h.tookTurn rest).engineTurn_answers
  · exact ⟨_, step_reset hreset⟩

end Sys2Proof.Machine

/-! SUPPORT. Which descriptor fields a command word reads (10_state.md R17; 30_encoding.md R54, R55,
R57), by its `OP` and its upper bits. -/

namespace Sys2Proof.Machine

/-- R55: every `ENC` row, reserved ones included, reads the fields of its `MODE` and `IVP`. -/
theorem fieldsRead_decodeEncrypt (mode pad : BitVec 2) (ivp : Bool) :
    fieldsRead (decodeEncrypt mode pad ivp) = msgFields mode ivp := by
  revert mode pad ivp; decide

/-- R55: every `DEC` row, reserved ones included, reads the fields of its `MODE` and `IVP`. -/
theorem fieldsRead_decodeDecrypt (mode pad : BitVec 2) (ivp : Bool) :
    fieldsRead (decodeDecrypt mode pad ivp) = msgFields mode ivp := by
  revert mode pad ivp; decide

/-- R57: an illegal row of `OP` 0, 1 or 2 reads no field. -/
theorem fieldsRead_decodeUnit {hi : BitVec 5} {legal bit3 : Instr}
    {bit7 bit6 bit5 bit4 : BitVec 5 → Instr} (h7 : fieldsRead (bit7 hi) = [])
    (h6 : fieldsRead (bit6 hi) = []) (h5 : fieldsRead (bit5 hi) = [])
    (h4 : fieldsRead (bit4 hi) = []) (h3 : fieldsRead bit3 = []) :
    fieldsRead (decodeUnit hi legal bit7 bit6 bit5 bit4 bit3) =
      if hi = 0#5 then fieldsRead legal else [] := by
  unfold decodeUnit
  split_ifs
  · rfl
  · exact h7
  · exact h6
  · exact h5
  · exact h4
  · exact h3

/-- R17, R55: the fields a word reads, by `OP`. -/
theorem fieldsRead_decode (c : Byte) :
    fieldsRead (decode c) =
      if opField c = 0#3 then if hiField c = 0#5 then [.key] else []
      else if opField c = 1#3 ∨ opField c = 2#3 then if hiField c = 0#5 then [.block, .rk] else []
      else if opField c = 3#3 ∨ opField c = 4#3 then msgFields (modeField c) (ivpField c)
      else [] := by
  unfold decode
  generalize opField c = op
  obtain rfl | rfl | rfl | rfl | rfl | rfl | rfl | rfl :
      op = 0 ∨ op = 1 ∨ op = 2 ∨ op = 3 ∨ op = 4 ∨ op = 5 ∨ op = 6 ∨ op = 7 := by
    revert op; decide
  · exact fieldsRead_decodeUnit rfl rfl rfl rfl rfl
  · exact fieldsRead_decodeUnit rfl rfl rfl rfl rfl
  · exact fieldsRead_decodeUnit rfl rfl rfl rfl rfl
  · exact fieldsRead_decodeEncrypt _ _ _
  · exact fieldsRead_decodeDecrypt _ _ _
  · rfl
  · rfl
  · rfl

theorem mem_msgFields {mode : BitVec 2} {ivp : Bool} {f : DescField} :
    f ∈ msgFields mode ivp ↔ f = .key ∨ f = .data ∨ f = .iv ∧ mode = 1#2 ∧ ivp = true := by
  unfold msgFields
  split_ifs with h <;> simp [h]

/-! ### The fields of a word as numbers (R50) -/

theorem opField_toNat (c : Byte) : (opField c).toNat = c.toNat % 8 := by
  simp [opField]

theorem opField_eq_iff {c : Byte} {op : BitVec 3} : opField c = op ↔ c.toNat % 8 = op.toNat := by
  rw [← BitVec.toNat_inj, opField_toNat]

theorem modeField_eq_one_iff {c : Byte} : modeField c = 1#2 ↔ c.toNat / 8 % 4 = 1 := by
  rw [← BitVec.toNat_inj]
  simp [modeField, Nat.shiftRight_eq_div_pow]

theorem ivpField_eq_true_iff {c : Byte} : ivpField c = true ↔ c.toNat / 128 = 1 := by
  have h := c.isLt
  simp only [ivpField, BitVec.getLsbD, Nat.testBit_eq_decide_div_mod_eq, decide_eq_true_eq]
  omega

theorem hiField_eq_zero_iff {c : Byte} : hiField c = 0#5 ↔ c.toNat / 8 = 0 := by
  have h := c.isLt
  rw [← BitVec.toNat_inj]
  simp [hiField, Nat.shiftRight_eq_div_pow]
  omega

/-- Settles O4, by `OP`: in each case `fieldsRead_decode` gives the list, and whether a field is in it
is arithmetic on the word. -/
theorem fieldsReadByWord : Obligations.FieldsReadByWord := by
  intro c
  have hc : ∀ n : Byte, c = n ↔ c.toNat = n.toNat := fun n => BitVec.toNat_inj.symm
  simp only [fieldsRead_decode, opField_eq_iff, hiField_eq_zero_iff, hc, BitVec.reduceToNat]
  split_ifs <;>
    simp only [List.mem_cons, List.not_mem_nil, mem_msgFields, modeField_eq_one_iff,
      ivpField_eq_true_iff, reduceCtorEq, true_and, false_and, or_true, false_or, or_false,
      true_iff, false_iff] <;>
    omega

end Sys2Proof.Machine

/-! SUPPORT. 20_memory.md: the byte order (R32), the blocks of a buffer (R33), `MemRead` and `MemWrite`
(R34, R35), and that a command shares nothing with another (R40). -/

namespace Sys2Proof.Machine

/-! ### The byte order -/

/-- R7: `BE32` as a number. -/
theorem be32_toNat (b0 b1 b2 b3 : Byte) : (be32 b0 b1 b2 b3).toNat =
    b0.toNat * 2 ^ 24 + b1.toNat * 2 ^ 16 + b2.toNat * 2 ^ 8 + b3.toNat := by
  have happend : ∀ {w : Nat} (x : BitVec w) (b : Byte), (x ++ b).toNat = x.toNat * 2 ^ 8 + b.toNat :=
    fun x b => by
      rw [BitVec.toNat_append, ← Nat.shiftLeft_add_eq_or_of_lt b.isLt, Nat.shiftLeft_eq]
  simp only [be32, happend]
  omega

/-- R7: byte `k` of a word as a number. -/
theorem wordByte_toNat (w : Word) (k : Fin 4) :
    (wordByte w k).toNat = w.toNat / 2 ^ (8 * (3 - k.val)) % 2 ^ 8 := by
  rw [wordByte, BitVec.extractLsb'_toNat, Nat.shiftRight_eq_div_pow]

/-- R7: the bytes of a word, in order, make it up. -/
@[simp] theorem be32_wordByte (w : Word) :
    be32 (wordByte w 0) (wordByte w 1) (wordByte w 2) (wordByte w 3) = w := by
  apply BitVec.eq_of_toNat_eq
  have hw := w.isLt
  simp only [be32_toNat, wordByte_toNat, Fin.coe_ofNat_eq_mod, Nat.reduceMod]
  omega

/-- R7: the bytes of `BE32` are the bytes it was made of. -/
theorem wordByte_be32 (b : Fin 4 → Byte) (k : Fin 4) :
    wordByte (be32 (b 0) (b 1) (b 2) (b 3)) k = b k := by
  apply BitVec.eq_of_toNat_eq
  have h0 := (b 0).isLt
  have h1 := (b 1).isLt
  have h2 := (b 2).isLt
  have h3 := (b 3).isLt
  rw [wordByte_toNat, be32_toNat]
  match k with
  | 0 | 1 | 2 | 3 =>
    simp only [Fin.coe_ofNat_eq_mod, Nat.reduceMod]
    omega

/-- R32: byte `m` of word `k` of a block is byte `4k + m` of the block. -/
theorem wordByte_blockWord (b : Block) (k m : Fin 4) :
    wordByte (blockWord b k) m = b[4 * k.val + m.val] :=
  wordByte_be32 (fun m : Fin 4 => b[4 * k.val + m.val]) m

/-- R32: the four words of a block make it up. -/
theorem blockOfWords_blockWord (b : Block) :
    blockOfWords (blockWord b 0) (blockWord b 1) (blockWord b 2) (blockWord b 3) = b := by
  simp only [blockOfWords, wordByte_blockWord]
  apply Vector.ext
  intro i hi
  interval_cases i <;> rfl

/-- Settles O17: `BE32` and `BYTES32` as numbers, and each undoes the other. -/
theorem bigEndianConversions : Obligations.BigEndianConversions :=
  ⟨be32_toNat, be32_wordByte,
    fun w0 w1 w2 w3 => ⟨be32_wordByte w0, be32_wordByte w1, be32_wordByte w2, be32_wordByte w3⟩,
    blockOfWords_blockWord⟩

/-! ### The blocks of a buffer -/

theorem blockAt_toList (b : List Byte) (j : Fin (b.length / 16)) :
    (blockAt b j).toList = (b.drop (16 * j.val)).take 16 := rfl

/-- R33: the first `n` blocks are the first `16n` bytes. -/
theorem bytesOf_take_blocksOf (b : List Byte) {n : Nat} (hn : n ≤ b.length / 16) :
    bytesOf ((blocksOf b).take n) = b.take (16 * n) := by
  induction n with
  | zero => rfl
  | succ n ih =>
    have hstep := congrArg bytesOf (blocksOf_take_succ b ⟨n, hn⟩)
    rw [bytesOf_append, bytesOf_singleton, blockAt_toList, ih (by omega)] at hstep
    rw [hstep, ← List.take_add, Nat.mul_succ]

/-- R33: the blocks of a sequence of whole blocks make it up. -/
theorem bytesOf_blocksOf {b : List Byte} (h : b.length % 16 = 0) : bytesOf (blocksOf b) = b := by
  rw [← blocksOf_take_all, bytesOf_take_blocksOf b le_rfl]
  exact List.take_of_length_le (by omega)

/-- Settles O18: a block is a slice of the sequence, and the slices adjoin. -/
theorem blocksMakeUpTheBuffer : Obligations.BlocksMakeUpTheBuffer := by
  refine ⟨fun b j k h => ?_, fun b => bytesOf_blocksOf⟩
  have hk : k < (blockAt b j).toList.length := by simpa using h
  rw [← Vector.getElem_toList hk, ← List.getElem?_eq_getElem, blockAt_toList,
    List.getElem?_take_of_lt h, List.getElem?_drop]

/-! ### `MemRead` -/

/-- R34: a slice past the end has no value. -/
theorem sliceBytes_eq_none {b : List Byte} {addr n : Nat} :
    sliceBytes b addr n = none ↔ b.length < addr + n := by
  unfold sliceBytes; split <;> simp <;> omega

/-- R34: a slice inside the space is `n` bytes, byte `k` of it byte `addr + k` of the space. -/
theorem sliceBytes_inside {b : List Byte} {addr n : Nat} (h : addr + n ≤ b.length) :
    ∃ v, sliceBytes b addr n = some v ∧ v.length = n ∧ ∀ k, k < n → v[k]? = b[addr + k]? := by
  refine ⟨_, sliceBytes_eq_some.2 ⟨h, rfl⟩, ?_, fun k hk => ?_⟩
  · rw [List.length_take, List.length_drop]
    omega
  · rw [List.getElem?_take_of_lt hk, List.getElem?_drop]

/-- R30, R34: in DONE a read of bytes is decided by whether the space holds a value and by the slice. -/
theorem readBytes_done {s : State} (sp : Space) (addr n : Nat) (hp : s.phase = .done) :
    readBytes sp addr n s =
      (spaceBytes s sp).elim (.refused (.readNoValue (.bytes sp addr n))) fun b =>
        (sliceBytes b addr n).elim (.fault (.outsideBuffer sp addr n)) fun v =>
          .next (giveHost (.bytes v) s) := by
  unfold readBytes memRead
  rw [hp]
  cases spaceBytes s sp with
  | none => rfl
  | some b =>
    simp only [Option.bind_some, Option.elim_some]
    cases sliceBytes b addr n <;> rfl

/-- The host's schedule is no byte space. -/
@[simp] theorem spaceBytes_tookTurn (s : State) (rest : List HostAction) (sp : Space) :
    spaceBytes (s.tookTurn rest) sp = spaceBytes s sp := by
  cases sp <;> rfl

/-- R30: the host reads bytes of the two output spaces. -/
theorem hostRead_bytes (space : OutSpace) (addr n : Nat) (s : State) :
    hostRead (.bytes space.toSpace addr n) s = readBytes space.toSpace addr n s := by
  cases space <;> rfl

/-- R21, R30: a byte read of an output space that holds no value is refused. -/
theorem step_readBytes_noValue {s : State} {space : OutSpace} {addr n : Nat}
    {rest : List HostAction} (h : s.host.pending = .read (.bytes space.toSpace addr n) :: rest)
    (hp : s.phase = .done) (hv : spaceBytes s space.toSpace = none) :
    step s = .refused (.readNoValue (.bytes space.toSpace addr n)) := by
  rw [step_read h, hostRead_bytes, readBytes_done (s := s.tookTurn rest) _ _ _ hp,
    spaceBytes_tookTurn, hv]
  rfl

/-- R34: a byte read of an output space that holds `b`: the slice, or the fault past the end. -/
theorem step_readBytes {s : State} {space : OutSpace} {b : List Byte} {addr n : Nat}
    {rest : List HostAction} (h : s.host.pending = .read (.bytes space.toSpace addr n) :: rest)
    (hp : s.phase = .done) (hv : spaceBytes s space.toSpace = some b) :
    (addr + n ≤ b.length → ∃ v : List Byte,
      v.length = n ∧ (∀ k, k < n → v[k]? = b[addr + k]?) ∧
      step s = .next { s with host := ⟨rest, some (.bytes v)⟩ }) ∧
    (b.length < addr + n → step s = .fault (.outsideBuffer space.toSpace addr n)) := by
  rw [step_read h, hostRead_bytes, readBytes_done (s := s.tookTurn rest) _ _ _ hp,
    spaceBytes_tookTurn, hv, Option.elim_some]
  constructor
  · intro hin
    obtain ⟨v, hs, hlen, hbytes⟩ := sliceBytes_inside hin
    exact ⟨v, hlen, hbytes, by rw [hs]; rfl⟩
  · intro hout
    rw [sliceBytes_eq_none.2 hout]
    rfl

theorem spaceBytes_blkout (s : State) :
    spaceBytes s OutSpace.blkout.toSpace = s.resp.blkout.map (·.toList) := rfl

/-- Settles O15: the same read of each of the two output spaces, `BLKOUT` being of 16 bytes. -/
theorem byteReadsOfOutput : Obligations.ByteReadsOfOutput := by
  refine ⟨fun s b addr n rest h hp hv => step_readBytes (space := .out) h hp hv,
    fun s b addr n rest h hp hv => ?_, fun s addr n rest hp =>
    ⟨fun h hv => step_readBytes_noValue (space := .out) h hp hv,
      fun h hv => step_readBytes_noValue (space := .blkout) h hp ?_⟩⟩
  · have hread := step_readBytes (space := .blkout) (b := b.toList) h hp
      (by rw [spaceBytes_blkout, hv]; rfl)
    rwa [Vector.length_toList] at hread
  · rw [spaceBytes_blkout, hv]
    rfl

/-! ### `MemWrite` -/

theorem splice_length (b : List Byte) (addr : Nat) (v : List Byte) :
    (splice b addr v).length = min addr b.length + v.length + (b.length - (addr + v.length)) := by
  simp [splice, Nat.add_assoc]

/-- R35: the written bytes are `v`. -/
theorem splice_written {b v : List Byte} {addr : Nat} (h : addr ≤ b.length) (k : Nat)
    (hk : k < v.length) : (splice b addr v)[addr + k]? = v[k]? := by
  rw [splice_getElem? h, if_neg (by omega), if_pos (by omega), Nat.add_sub_cancel_left]

/-- R35: every other byte is kept. -/
theorem splice_kept {b v : List Byte} {addr : Nat} (h : addr ≤ b.length) (a : Nat)
    (ha : a < addr ∨ addr + v.length ≤ a) : (splice b addr v)[a]? = b[a]? := by
  rw [splice_getElem? h]
  split
  · rfl
  · rw [if_neg (by omega)]

/-- R35, log 24: a write that starts past what the space holds is outside it. -/
theorem memWrite_gap {space : OutSpace} {addr : Nat} {v : List Byte} {r : Response}
    (h : (space.bytes r).length < addr) :
    memWrite space addr v r = .error (.outside space.toSpace addr v.length) :=
  memWrite_error.2 fun _ hok => by
    have := (memWrite_ok.1 hok).1
    omega

/-- R19, R35: a write that leaves 16 bytes in `BLKOUT` is made. -/
theorem memWrite_blkout_ok {addr : Nat} {v : List Byte} {r : Response}
    (haddr : addr ≤ (OutSpace.blkout.bytes r).length)
    (hlen : (splice (OutSpace.blkout.bytes r) addr v).length = 16) :
    ∃ b : Block, memWrite .blkout addr v r = .ok { r with blkout := some b } ∧
      b.toList = splice (OutSpace.blkout.bytes r) addr v := by
  cases hb : asBlock (splice (OutSpace.blkout.bytes r) addr v) with
  | none => exact absurd hlen (asBlock_eq_none.1 hb)
  | some b =>
    exact ⟨b, memWrite_ok.2 ⟨haddr, by rw [put_blkout, hb]; rfl⟩, (asBlock_eq_some.1 hb).symm⟩

/-- R19, R35, log 24: a write that leaves any other length in `BLKOUT` is outside it. -/
theorem memWrite_blkout_error {addr : Nat} {v : List Byte} {r : Response}
    (h : addr ≤ (OutSpace.blkout.bytes r).length →
      (splice (OutSpace.blkout.bytes r) addr v).length ≠ 16) :
    memWrite .blkout addr v r = .error (.outside .blkout addr v.length) :=
  memWrite_error.2 fun _ hok => by
    obtain ⟨haddr, hput⟩ := memWrite_ok.1 hok
    rw [put_blkout, asBlock_eq_none.2 (h haddr)] at hput
    cases hput

/-- Settles O16: the written space is a splice, which `BLKOUT` holds exactly when it is 16 bytes. -/
theorem memWriteSetsTheBytes : Obligations.MemWriteSetsTheBytes := by
  refine ⟨fun r addr v => ⟨fun h => ?_, memWrite_gap (space := .out)⟩, fun r b addr v hb => ?_,
    fun r addr v hb => ?_⟩
  · exact ⟨_, memWrite_ok.2 ⟨h, put_out _ _⟩, splice_written h, splice_kept h⟩
  · have hbytes : OutSpace.blkout.bytes r = b.toList := by simp [hb]
    have hlen : b.toList.length = 16 := by simp
    constructor
    · intro h
      have haddr : addr ≤ b.toList.length := by omega
      obtain ⟨b', hw, hb'⟩ := memWrite_blkout_ok (addr := addr) (v := v) (r := r)
        (by rwa [hbytes]) (by rw [hbytes, splice_length]; omega)
      rw [hbytes] at hb'
      exact ⟨b', hw, by rw [hb']; exact splice_written haddr, by rw [hb']; exact splice_kept haddr⟩
    · intro h
      apply memWrite_blkout_error
      rw [hbytes, splice_length]
      omega
  · have hbytes : OutSpace.blkout.bytes r = [] := by simp [hb]
    constructor
    · rintro ⟨rfl, hv⟩
      have hw := memWrite_blkout_ok (addr := 0) (v := v) (r := r) (Nat.zero_le _)
        (by rwa [hbytes, splice_nil_zero])
      rwa [hbytes, splice_nil_zero] at hw
    · intro h
      apply memWrite_blkout_error
      rw [hbytes, splice_length, List.length_nil]
      omega

/-! ### A command and the ones before it -/

/-- Settles O58: the issue latches the descriptor in BUSY, and the wait is the engine's turn, which
completes it. -/
theorem issuedCommandIsAnswered : Obligations.IssuedCommandIsAnswered := by
  intro s d rest hinv hp hpending hcap hsupplied
  have hissue := (issueLatchesDescriptor s d _ hp hpending hcap).1 hsupplied
  have hready : Ready (decode d.cmd) d ((accept d (s.tookTurn (.wait :: rest))).tookTurn rest) :=
    ⟨rfl, rfl, firstAbsent_eq_none.2 hsupplied⟩
  obtain ⟨r, hr, he⟩ := everyCommandCompletes _ _ _ hready
  refine ⟨accept d (s.tookTurn (.wait :: rest)), _, r, hissue, rfl,
    ((step_wait rfl).trans (engineTurn_busy hready.1 hready.2.1)).trans he, rfl, rfl, rfl, ?_⟩
  rwa [← hinv.rom]

end Sys2Proof.Machine

/-! SUPPORT. The decoder and the encoder undo each other (30_encoding.md R50, R57 to R59), the
illegal words (R57), what ECB makes of the IV (R54), and the five calls as commands (R60, R61). -/

namespace Sys2Proof

/-! ### The fields of a word that is put together (R50) -/

@[simp] theorem opField_hiWord (op : BitVec 3) (hi : BitVec 5) : opField (hiWord op hi) = op :=
  BitVec.extractLsb'_append_eq_right

@[simp] theorem hiField_hiWord (op : BitVec 3) (hi : BitVec 5) : hiField (hiWord op hi) = hi :=
  BitVec.extractLsb'_append_eq_left

@[simp] theorem opField_msgWord (op : BitVec 3) (mode pad : BitVec 2) (ivp : Bool) :
    opField (msgWord op mode pad ivp) = op :=
  BitVec.extractLsb'_append_eq_right

@[simp] theorem modeField_msgWord (op : BitVec 3) (mode pad : BitVec 2) (ivp : Bool) :
    modeField (msgWord op mode pad ivp) = mode :=
  (BitVec.extractLsb'_append_eq_of_le le_rfl).trans BitVec.extractLsb'_append_eq_right

@[simp] theorem padField_msgWord (op : BitVec 3) (mode pad : BitVec 2) (ivp : Bool) :
    padField (msgWord op mode pad ivp) = pad :=
  (BitVec.extractLsb'_append_eq_of_le (by decide)).trans
    ((BitVec.extractLsb'_append_eq_of_le le_rfl).trans BitVec.extractLsb'_append_eq_right)

@[simp] theorem ivpField_msgWord (op : BitVec 3) (mode pad : BitVec 2) (ivp : Bool) :
    ivpField (msgWord op mode pad ivp) = ivp := by
  simp only [ivpField, msgWord, BitVec.getLsbD_append]
  simp

/-- R50: a word is its bits 7:3 over its `OP`. -/
theorem hiWord_fields (c : Byte) : hiWord (opField c) (hiField c) = c :=
  (BitVec.extractLsb'_append_extractLsb'_eq_extractLsb' rfl).trans BitVec.extractLsb'_eq_self

/-- R50: a word is its `IVP`, `PAD`, `MODE` and `OP`. -/
theorem msgWord_fields (c : Byte) :
    msgWord (opField c) (modeField c) (padField c) (ivpField c) = c := by
  have hivp : BitVec.ofBool (ivpField c) = c.extractLsb' 7 1 := by
    ext i hi
    obtain rfl : i = 0 := by omega
    simp [ivpField]
  rw [msgWord, hivp, padField, modeField, opField,
    BitVec.extractLsb'_append_extractLsb'_eq_extractLsb' (by decide : 7 = 5 + 2),
    BitVec.extractLsb'_append_extractLsb'_eq_extractLsb' (by decide : 5 = 3 + 2),
    BitVec.extractLsb'_append_extractLsb'_eq_extractLsb' (by decide : 3 = 0 + 3)]
  exact BitVec.extractLsb'_eq_self

/-- R50, R58: every word has one of the eight values of `OP`; the words of `OP` 3 and 4 are their
`MODE`, `PAD` and `IVP`, the others their bits 7:3. -/
theorem word_cases {P : Byte → Prop}
    (op0 : ∀ hi, P (hiWord 0 hi)) (op1 : ∀ hi, P (hiWord 1 hi)) (op2 : ∀ hi, P (hiWord 2 hi))
    (op3 : ∀ mode pad ivp, P (msgWord 3 mode pad ivp))
    (op4 : ∀ mode pad ivp, P (msgWord 4 mode pad ivp))
    (op5 : ∀ hi, P (hiWord 5 hi)) (op6 : ∀ hi, P (hiWord 6 hi)) (op7 : ∀ hi, P (hiWord 7 hi))
    (c : Byte) : P c := by
  have hop : ∀ op : BitVec 3,
      op = 0 ∨ op = 1 ∨ op = 2 ∨ op = 3 ∨ op = 4 ∨ op = 5 ∨ op = 6 ∨ op = 7 := by decide
  have hhi := hiWord_fields c
  have hmsg := msgWord_fields c
  generalize opField c = op at hhi hmsg
  obtain rfl | rfl | rfl | rfl | rfl | rfl | rfl | rfl := hop op
  · exact hhi ▸ op0 _
  · exact hhi ▸ op1 _
  · exact hhi ▸ op2 _
  · exact hmsg ▸ op3 _ _ _
  · exact hmsg ▸ op4 _ _ _
  · exact hhi ▸ op5 _
  · exact hhi ▸ op6 _
  · exact hhi ▸ op7 _

/-! ### The decoder, by `OP` (R58) -/

theorem decode_hiWord_zero (hi : BitVec 5) : decode (hiWord 0 hi) =
    decodeUnit hi .keysched .illegalKeyschedBit7 .illegalKeyschedBit6 .illegalKeyschedBit5
      .illegalKeyschedBit4 .illegalKeyschedBit3 := by
  rw [decode, opField_hiWord, hiField_hiWord]; rfl

theorem decode_hiWord_one (hi : BitVec 5) : decode (hiWord 1 hi) =
    decodeUnit hi .encblk .illegalEncblkBit7 .illegalEncblkBit6 .illegalEncblkBit5
      .illegalEncblkBit4 .illegalEncblkBit3 := by
  rw [decode, opField_hiWord, hiField_hiWord]; rfl

theorem decode_hiWord_two (hi : BitVec 5) : decode (hiWord 2 hi) =
    decodeUnit hi .decblk .illegalDecblkBit7 .illegalDecblkBit6 .illegalDecblkBit5
      .illegalDecblkBit4 .illegalDecblkBit3 := by
  rw [decode, opField_hiWord, hiField_hiWord]; rfl

theorem decode_msgWord_three (mode pad : BitVec 2) (ivp : Bool) :
    decode (msgWord 3 mode pad ivp) = decodeEncrypt mode pad ivp := by
  rw [decode, opField_msgWord, modeField_msgWord, padField_msgWord, ivpField_msgWord]; rfl

theorem decode_msgWord_four (mode pad : BitVec 2) (ivp : Bool) :
    decode (msgWord 4 mode pad ivp) = decodeDecrypt mode pad ivp := by
  rw [decode, opField_msgWord, modeField_msgWord, padField_msgWord, ivpField_msgWord]; rfl

theorem decode_hiWord_five (hi : BitVec 5) : decode (hiWord 5 hi) = .illegalOp5 hi := by
  rw [decode, opField_hiWord, hiField_hiWord]; rfl

theorem decode_hiWord_six (hi : BitVec 5) : decode (hiWord 6 hi) = .illegalOp6 hi := by
  rw [decode, opField_hiWord, hiField_hiWord]; rfl

theorem decode_hiWord_seven (hi : BitVec 5) : decode (hiWord 7 hi) = .illegalOp7 hi := by
  rw [decode, opField_hiWord, hiField_hiWord]; rfl

/-! ### The rows of `OP` 0, 1 and 2, by the highest bit of 7:3 that is set (R57) -/

/-- A mask of `Instr.wf` as the bits the decoder tests; bit 7 of the word is bit 4 of `hi`. -/
theorem bit7Mask_iff {hi : BitVec 5} : hi.extractLsb' 4 1 = 1#1 ↔ hi.getLsbD 4 = true := by
  revert hi; decide

theorem bit6Mask_iff {hi : BitVec 5} :
    hi.extractLsb' 3 2 = 1#2 ↔ hi.getLsbD 4 = false ∧ hi.getLsbD 3 = true := by
  revert hi; decide

theorem bit5Mask_iff {hi : BitVec 5} : hi.extractLsb' 2 3 = 1#3 ↔
    hi.getLsbD 4 = false ∧ hi.getLsbD 3 = false ∧ hi.getLsbD 2 = true := by
  revert hi; decide

theorem bit4Mask_iff {hi : BitVec 5} : hi.extractLsb' 1 4 = 1#4 ↔
    hi.getLsbD 4 = false ∧ hi.getLsbD 3 = false ∧ hi.getLsbD 2 = false ∧ hi.getLsbD 1 = true := by
  revert hi; decide

theorem bit3Mask_iff {hi : BitVec 5} : hi = 1#5 ↔
    hi ≠ 0#5 ∧ hi.getLsbD 4 = false ∧ hi.getLsbD 3 = false ∧ hi.getLsbD 2 = false ∧
      hi.getLsbD 1 = false := by
  revert hi; decide

theorem ne_zero_of_getLsbD {hi : BitVec 5} {k : Nat} (h : hi.getLsbD k = true) : hi ≠ 0#5 := by
  rintro rfl
  simp at h

section DecodeUnit

variable {hi : BitVec 5} {legal bit3 : Instr} {bit7 bit6 bit5 bit4 : BitVec 5 → Instr}

theorem decodeUnit_bit7 (h : hi.extractLsb' 4 1 = 1#1) :
    decodeUnit hi legal bit7 bit6 bit5 bit4 bit3 = bit7 hi := by
  have h4 := bit7Mask_iff.1 h
  simp only [decodeUnit, ne_zero_of_getLsbD h4, h4, if_false, if_true]

theorem decodeUnit_bit6 (h : hi.extractLsb' 3 2 = 1#2) :
    decodeUnit hi legal bit7 bit6 bit5 bit4 bit3 = bit6 hi := by
  obtain ⟨h4, h3⟩ := bit6Mask_iff.1 h
  simp only [decodeUnit, ne_zero_of_getLsbD h3, h4, h3, Bool.false_eq_true, if_false, if_true]

theorem decodeUnit_bit5 (h : hi.extractLsb' 2 3 = 1#3) :
    decodeUnit hi legal bit7 bit6 bit5 bit4 bit3 = bit5 hi := by
  obtain ⟨h4, h3, h2⟩ := bit5Mask_iff.1 h
  simp only [decodeUnit, ne_zero_of_getLsbD h2, h4, h3, h2, Bool.false_eq_true, if_false, if_true]

theorem decodeUnit_bit4 (h : hi.extractLsb' 1 4 = 1#4) :
    decodeUnit hi legal bit7 bit6 bit5 bit4 bit3 = bit4 hi := by
  obtain ⟨h4, h3, h2, h1⟩ := bit4Mask_iff.1 h
  simp only [decodeUnit, ne_zero_of_getLsbD h1, h4, h3, h2, h1, Bool.false_eq_true, if_false,
    if_true]

/-- R57: a word of `OP` 0, 1 or 2 is the command when bits 7:3 are zero, else the row of their
highest set bit. -/
theorem decodeUnit_cases {P : Instr → Prop} (hlegal : hi = 0#5 → P legal)
    (h7 : hi.extractLsb' 4 1 = 1#1 → P (bit7 hi)) (h6 : hi.extractLsb' 3 2 = 1#2 → P (bit6 hi))
    (h5 : hi.extractLsb' 2 3 = 1#3 → P (bit5 hi)) (h4 : hi.extractLsb' 1 4 = 1#4 → P (bit4 hi))
    (h3 : hi = 1#5 → P bit3) : P (decodeUnit hi legal bit7 bit6 bit5 bit4 bit3) := by
  unfold decodeUnit
  split_ifs with hz hb4 hb3 hb2 hb1
  · exact hlegal hz
  · exact h7 (bit7Mask_iff.2 hb4)
  · exact h6 (bit6Mask_iff.2 ⟨eq_false_of_ne_true hb4, hb3⟩)
  · exact h5 (bit5Mask_iff.2 ⟨eq_false_of_ne_true hb4, eq_false_of_ne_true hb3, hb2⟩)
  · exact h4 (bit4Mask_iff.2 ⟨eq_false_of_ne_true hb4, eq_false_of_ne_true hb3,
      eq_false_of_ne_true hb2, hb1⟩)
  · exact h3 (bit3Mask_iff.2 ⟨hz, eq_false_of_ne_true hb4, eq_false_of_ne_true hb3,
      eq_false_of_ne_true hb2, eq_false_of_ne_true hb1⟩)

end DecodeUnit

/-! ### The rows of `OP` 3 and 4 with a reserved field (R52, R53) -/

theorem decodeEncrypt_rsvMode {mode : BitVec 2} (pad : BitVec 2) (ivp : Bool)
    (h : mode = 2#2 ∨ mode = 3#2) : decodeEncrypt mode pad ivp = .encRsvMode mode pad ivp := by
  obtain rfl | rfl := h <;> rfl

theorem decodeDecrypt_rsvMode {mode : BitVec 2} (pad : BitVec 2) (ivp : Bool)
    (h : mode = 2#2 ∨ mode = 3#2) : decodeDecrypt mode pad ivp = .decRsvMode mode pad ivp := by
  obtain rfl | rfl := h <;> rfl

theorem decodeEncrypt_rsvPad {mode : BitVec 2} (ivp : Bool) (h : mode = 0#2 ∨ mode = 1#2) :
    decodeEncrypt mode 3 ivp = .encRsvPad mode ivp := by
  obtain rfl | rfl := h <;> rfl

theorem decodeDecrypt_rsvPad {mode : BitVec 2} (ivp : Bool) (h : mode = 0#2 ∨ mode = 1#2) :
    decodeDecrypt mode 3 ivp = .decRsvPad mode ivp := by
  obtain rfl | rfl := h <;> rfl

/-! ### Decoding what was encoded -/

/-- R58, R59: the word of a well-formed instruction decodes to it. -/
theorem decode_encodeWord {i : Instr} (h : i.wf = true) : decode (encodeWord i) = i := by
  cases i with
  | keysched => exact decode_hiWord_zero 0
  | encblk => exact decode_hiWord_one 0
  | decblk => exact decode_hiWord_two 0
  | encEcbNone ivp => exact decode_msgWord_three 0 0 ivp
  | encEcbPkcs7 ivp => exact decode_msgWord_three 0 1 ivp
  | encEcbZero ivp => exact decode_msgWord_three 0 2 ivp
  | encCbcNone ivp => exact decode_msgWord_three 1 0 ivp
  | encCbcPkcs7 ivp => exact decode_msgWord_three 1 1 ivp
  | encCbcZero ivp => exact decode_msgWord_three 1 2 ivp
  | decEcbNone ivp => exact decode_msgWord_four 0 0 ivp
  | decEcbPkcs7 ivp => exact decode_msgWord_four 0 1 ivp
  | decEcbZero ivp => exact decode_msgWord_four 0 2 ivp
  | decCbcNone ivp => exact decode_msgWord_four 1 0 ivp
  | decCbcPkcs7 ivp => exact decode_msgWord_four 1 1 ivp
  | decCbcZero ivp => exact decode_msgWord_four 1 2 ivp
  | encRsvMode mode pad ivp =>
    exact (decode_msgWord_three mode pad ivp).trans
      (decodeEncrypt_rsvMode pad ivp (by simpa [Instr.wf] using h))
  | decRsvMode mode pad ivp =>
    exact (decode_msgWord_four mode pad ivp).trans
      (decodeDecrypt_rsvMode pad ivp (by simpa [Instr.wf] using h))
  | encRsvPad mode ivp =>
    exact (decode_msgWord_three mode 3 ivp).trans
      (decodeEncrypt_rsvPad ivp (by simpa [Instr.wf] using h))
  | decRsvPad mode ivp =>
    exact (decode_msgWord_four mode 3 ivp).trans
      (decodeDecrypt_rsvPad ivp (by simpa [Instr.wf] using h))
  | illegalOp5 hi => exact decode_hiWord_five hi
  | illegalOp6 hi => exact decode_hiWord_six hi
  | illegalOp7 hi => exact decode_hiWord_seven hi
  | illegalKeyschedBit7 hi => exact (decode_hiWord_zero hi).trans (decodeUnit_bit7 (eq_of_beq h))
  | illegalKeyschedBit6 hi => exact (decode_hiWord_zero hi).trans (decodeUnit_bit6 (eq_of_beq h))
  | illegalKeyschedBit5 hi => exact (decode_hiWord_zero hi).trans (decodeUnit_bit5 (eq_of_beq h))
  | illegalKeyschedBit4 hi => exact (decode_hiWord_zero hi).trans (decodeUnit_bit4 (eq_of_beq h))
  | illegalKeyschedBit3 => exact decode_hiWord_zero 1
  | illegalEncblkBit7 hi => exact (decode_hiWord_one hi).trans (decodeUnit_bit7 (eq_of_beq h))
  | illegalEncblkBit6 hi => exact (decode_hiWord_one hi).trans (decodeUnit_bit6 (eq_of_beq h))
  | illegalEncblkBit5 hi => exact (decode_hiWord_one hi).trans (decodeUnit_bit5 (eq_of_beq h))
  | illegalEncblkBit4 hi => exact (decode_hiWord_one hi).trans (decodeUnit_bit4 (eq_of_beq h))
  | illegalEncblkBit3 => exact decode_hiWord_one 1
  | illegalDecblkBit7 hi => exact (decode_hiWord_two hi).trans (decodeUnit_bit7 (eq_of_beq h))
  | illegalDecblkBit6 hi => exact (decode_hiWord_two hi).trans (decodeUnit_bit6 (eq_of_beq h))
  | illegalDecblkBit5 hi => exact (decode_hiWord_two hi).trans (decodeUnit_bit5 (eq_of_beq h))
  | illegalDecblkBit4 hi => exact (decode_hiWord_two hi).trans (decodeUnit_bit4 (eq_of_beq h))
  | illegalDecblkBit3 => exact decode_hiWord_two 1

/-- Settles O1: `encode i` is the one word of `i`, which decodes to it. -/
theorem decodeUndoesEncode : Obligations.DecodeUndoesEncode := by
  intro i h rest
  rw [encode, List.singleton_append, decodeBytes, decode_encodeWord h]

/-- Settles O3: the decoder is run on each of the twelve words. -/
theorem specWordsDecode : Obligations.SpecWordsDecode :=
  ⟨rfl, rfl, rfl, rfl, rfl, rfl, rfl, rfl, rfl, rfl, rfl, rfl⟩

/-! ### Encoding what was decoded -/

/-- The word of an instruction, and whether its operands lie in its row. -/
def HasWord (i : Instr) (c : Byte) (wf : Bool) : Prop := encodeWord i = c ∧ i.wf = wf

/-- R57: six rows with the words and the masks of an `OP` 0, 1 or 2 are decoded soundly. -/
theorem decodeUnit_hasWord {op : BitVec 3} {hi : BitVec 5} {legal bit3 : Instr}
    {bit7 bit6 bit5 bit4 : BitVec 5 → Instr} (hlegal : HasWord legal (hiWord op 0) true)
    (h7 : HasWord (bit7 hi) (hiWord op hi) (hi.extractLsb' 4 1 == 1#1))
    (h6 : HasWord (bit6 hi) (hiWord op hi) (hi.extractLsb' 3 2 == 1#2))
    (h5 : HasWord (bit5 hi) (hiWord op hi) (hi.extractLsb' 2 3 == 1#3))
    (h4 : HasWord (bit4 hi) (hiWord op hi) (hi.extractLsb' 1 4 == 1#4))
    (h3 : HasWord bit3 (hiWord op 1) true) :
    HasWord (decodeUnit hi legal bit7 bit6 bit5 bit4 bit3) (hiWord op hi) true :=
  decodeUnit_cases (P := fun i => HasWord i (hiWord op hi) true)
    (fun h => h ▸ hlegal) (fun h => beq_iff_eq.2 h ▸ h7) (fun h => beq_iff_eq.2 h ▸ h6)
    (fun h => beq_iff_eq.2 h ▸ h5) (fun h => beq_iff_eq.2 h ▸ h4) (fun h => h ▸ h3)

/-- R59: the rows of `OP` 3 partition `MODE` and `PAD`. -/
theorem decodeEncrypt_hasWord (mode pad : BitVec 2) (ivp : Bool) :
    HasWord (decodeEncrypt mode pad ivp) (msgWord 3 mode pad ivp) true := by
  unfold HasWord; revert mode pad ivp; decide

/-- R59: the rows of `OP` 4 partition `MODE` and `PAD`. -/
theorem decodeDecrypt_hasWord (mode pad : BitVec 2) (ivp : Bool) :
    HasWord (decodeDecrypt mode pad ivp) (msgWord 4 mode pad ivp) true := by
  unfold HasWord; revert mode pad ivp; decide

/-- R57, R58: what a word decodes to is in its row and is encoded as that word. -/
theorem decode_hasWord (c : Byte) : HasWord (decode c) c true := by
  induction c using word_cases with
  | op0 hi =>
    rw [decode_hiWord_zero]
    exact decodeUnit_hasWord ⟨rfl, rfl⟩ ⟨rfl, rfl⟩ ⟨rfl, rfl⟩ ⟨rfl, rfl⟩ ⟨rfl, rfl⟩ ⟨rfl, rfl⟩
  | op1 hi =>
    rw [decode_hiWord_one]
    exact decodeUnit_hasWord ⟨rfl, rfl⟩ ⟨rfl, rfl⟩ ⟨rfl, rfl⟩ ⟨rfl, rfl⟩ ⟨rfl, rfl⟩ ⟨rfl, rfl⟩
  | op2 hi =>
    rw [decode_hiWord_two]
    exact decodeUnit_hasWord ⟨rfl, rfl⟩ ⟨rfl, rfl⟩ ⟨rfl, rfl⟩ ⟨rfl, rfl⟩ ⟨rfl, rfl⟩ ⟨rfl, rfl⟩
  | op3 mode pad ivp =>
    rw [decode_msgWord_three]
    exact decodeEncrypt_hasWord mode pad ivp
  | op4 mode pad ivp =>
    rw [decode_msgWord_four]
    exact decodeDecrypt_hasWord mode pad ivp
  | op5 hi => rw [decode_hiWord_five]; exact ⟨rfl, rfl⟩
  | op6 hi => rw [decode_hiWord_six]; exact ⟨rfl, rfl⟩
  | op7 hi => rw [decode_hiWord_seven]; exact ⟨rfl, rfl⟩

/-- Settles O2: the decoded instruction is in its row, and its word is the byte. -/
theorem encodeUndoesDecode : Obligations.EncodeUndoesDecode := by
  intro c
  obtain ⟨hword, hwf⟩ := decode_hasWord c
  exact ⟨hwf, by rw [encode, hword]⟩

end Sys2Proof

namespace Sys2Proof.Machine

/-! ### The illegal words (R57, R147) -/

/-- R57: of the rows of an `OP` 0, 1 or 2 all but the command are illegal. -/
theorem kind_decodeUnit_illegal {hi : BitVec 5} {legal bit3 : Instr}
    {bit7 bit6 bit5 bit4 : BitVec 5 → Instr} (hlegal : kind legal ≠ .illegal)
    (h7 : kind (bit7 hi) = .illegal) (h6 : kind (bit6 hi) = .illegal)
    (h5 : kind (bit5 hi) = .illegal) (h4 : kind (bit4 hi) = .illegal)
    (h3 : kind bit3 = .illegal) :
    kind (decodeUnit hi legal bit7 bit6 bit5 bit4 bit3) = .illegal ↔ hi ≠ 0#5 := by
  unfold decodeUnit
  split_ifs with hz
  · exact iff_of_false hlegal (not_not_intro hz)
  · exact iff_of_true h7 hz
  · exact iff_of_true h6 hz
  · exact iff_of_true h5 hz
  · exact iff_of_true h4 hz
  · exact iff_of_true h3 hz

/-- R59: no row of `OP` 3 is illegal. -/
theorem kind_decodeEncrypt_ne_illegal (mode pad : BitVec 2) (ivp : Bool) :
    kind (decodeEncrypt mode pad ivp) ≠ .illegal := by
  revert mode pad ivp; decide

/-- R59: no row of `OP` 4 is illegal. -/
theorem kind_decodeDecrypt_ne_illegal (mode pad : BitVec 2) (ivp : Bool) :
    kind (decodeDecrypt mode pad ivp) ≠ .illegal := by
  revert mode pad ivp; decide

/-- R57: the illegal words, by `OP` and bits 7:3. -/
theorem kind_decode_eq_illegal_iff (c : Byte) : kind (decode c) = .illegal ↔
    5 ≤ (opField c).toNat ∨ (opField c).toNat ≤ 2 ∧ hiField c ≠ 0#5 := by
  induction c using word_cases with
  | op0 hi =>
    rw [decode_hiWord_zero, opField_hiWord, hiField_hiWord]
    exact (kind_decodeUnit_illegal (by decide) rfl rfl rfl rfl rfl).trans (by simp)
  | op1 hi =>
    rw [decode_hiWord_one, opField_hiWord, hiField_hiWord]
    exact (kind_decodeUnit_illegal (by decide) rfl rfl rfl rfl rfl).trans (by simp)
  | op2 hi =>
    rw [decode_hiWord_two, opField_hiWord, hiField_hiWord]
    exact (kind_decodeUnit_illegal (by decide) rfl rfl rfl rfl rfl).trans (by simp)
  | op3 mode pad ivp =>
    rw [decode_msgWord_three, opField_msgWord]
    exact iff_of_false (kind_decodeEncrypt_ne_illegal mode pad ivp) (by simp)
  | op4 mode pad ivp =>
    rw [decode_msgWord_four, opField_msgWord]
    exact iff_of_false (kind_decodeDecrypt_ne_illegal mode pad ivp) (by simp)
  | op5 hi =>
    rw [decode_hiWord_five, opField_hiWord]
    exact iff_of_true rfl (.inl (by decide))
  | op6 hi =>
    rw [decode_hiWord_six, opField_hiWord]
    exact iff_of_true rfl (.inl (by decide))
  | op7 hi =>
    rw [decode_hiWord_seven, opField_hiWord]
    exact iff_of_true rfl (.inl (by decide))

/-- Settles O40: the fields of the word as numbers, and the one operation of every illegal row. -/
theorem illegalWordsComplete : Obligations.IllegalWordsComplete := by
  refine ⟨fun c => ?_, fun i d s hk hp hl => ?_⟩
  · rw [kind_decode_eq_illegal_iff, opField_toNat, ne_eq, hiField_eq_zero_iff]
  · rw [exec_kind, hk]
    exact runIllegal_busy hp hl

/-! ### What ECB makes of the IV (R54, C1) -/

/-- R55: the operands of a `MSG` word with these operands latched. -/
theorem RunsMessage.operands {s : State} {key data : List Byte} {iv : Option (List Byte)}
    {mode : BitVec 2} {ivp : Bool} (h : RunsMessage s key iv data)
    (hv : mode = 1#2 → ivp = true → iv.isSome = true) :
    ∃ d, s.latch = some d ∧ msgOperands mode ivp d =
      .ok ⟨key, if mode = 1#2 ∧ ivp = true then iv else none, data⟩ := by
  obtain ⟨-, d, hl, hkey, rfl, hdata⟩ := h
  exact ⟨d, hl, msgOperands_eq hkey hdata hv⟩

/-- R125: an `ENCRYPT` word with its operands latched. -/
theorem exec_encrypt_of_runsMessage {i : Instr} {s : State} {key data : List Byte}
    {iv : Option (List Byte)} {mode pad : BitVec 2} {ivp : Bool}
    (hk : kind i = .encrypt mode pad ivp) (h : RunsMessage s key iv data)
    (hv : mode = 1#2 → ivp = true → iv.isSome = true) :
    exec i s = .next (finish (messageResponse (encryptOf s.rom mode pad
      ⟨key, if mode = 1#2 ∧ ivp = true then iv else none, data⟩)) s) := by
  obtain ⟨d, hl, ho⟩ := h.operands hv
  rw [exec_kind, hk]
  exact runEncrypt_busy h.1 hl ho

/-- R126: a `DECRYPT` word with its operands latched. -/
theorem exec_decrypt_of_runsMessage {i : Instr} {s : State} {key data : List Byte}
    {iv : Option (List Byte)} {mode pad : BitVec 2} {ivp : Bool}
    (hk : kind i = .decrypt mode pad ivp) (h : RunsMessage s key iv data)
    (hv : mode = 1#2 → ivp = true → iv.isSome = true) :
    exec i s = .next (finish (messageResponse (decryptOf s.rom mode pad
      ⟨key, if mode = 1#2 ∧ ivp = true then iv else none, data⟩)) s) := by
  obtain ⟨d, hl, ho⟩ := h.operands hv
  rw [exec_kind, hk]
  exact runDecrypt_busy h.1 hl ho

/-- Settles O41: in ECB the IV is no operand, so both responses are of the same values. -/
theorem ecbIgnoresTheIv : Obligations.EcbIgnoresTheIv := by
  intro s s' key data iv iv' pad ivp ivp' hrom h h'
  exact ⟨⟨_, _, exec_encrypt_of_runsMessage (kind_encInstr false pad ivp) h nofun,
      exec_encrypt_of_runsMessage (kind_encInstr false pad ivp') h' nofun, by simp [hrom]⟩,
    _, _, exec_decrypt_of_runsMessage (kind_decInstr false pad ivp) h nofun,
      exec_decrypt_of_runsMessage (kind_decInstr false pad ivp') h' nofun, by simp [hrom]⟩

/-! ### The five calls (R60, R61) -/

/-- R53: the 2-bit `PAD` of a padding. -/
def Padding.bits : Padding → BitVec 2
  | .none => 0
  | .pkcs7 => 1
  | .zero => 2

theorem encodeWord_encInstr (cbc : Bool) (pad : Padding) (ivp : Bool) :
    encodeWord (encInstr cbc pad ivp) = msgWord 3 (if cbc then 1 else 0) pad.bits ivp := by
  cases cbc <;> cases pad <;> rfl

theorem encodeWord_decInstr (cbc : Bool) (pad : Padding) (ivp : Bool) :
    encodeWord (decInstr cbc pad ivp) = msgWord 4 (if cbc then 1 else 0) pad.bits ivp := by
  cases cbc <;> cases pad <;> rfl

theorem encInstr_wf (cbc : Bool) (pad : Padding) (ivp : Bool) :
    (encInstr cbc pad ivp).wf = true := by
  cases cbc <;> cases pad <;> rfl

theorem decInstr_wf (cbc : Bool) (pad : Padding) (ivp : Bool) :
    (decInstr cbc pad ivp).wf = true := by
  cases cbc <;> cases pad <;> rfl

theorem Call.instr_wf (c : Call) : c.instr.wf = true := by
  cases c with
  | keySchedule key => rfl
  | encryptBlock b ks => rfl
  | decryptBlock b ks => rfl
  | encrypt data key cbc iv pad => exact encInstr_wf cbc pad iv.isSome
  | decrypt data key cbc iv pad => exact decInstr_wf cbc pad iv.isSome

theorem Call.descriptor_cmd (c : Call) : c.descriptor.cmd = encodeWord c.instr := by
  cases c <;> rfl

/-- R61: the word of a call is that of its one command. -/
theorem Call.decode_cmd (c : Call) : decode c.descriptor.cmd = c.instr := by
  rw [c.descriptor_cmd, decode_encodeWord c.instr_wf]

/-- R54: a descriptor with key and data has the fields of a `MSG` word whose `IVP` says its IV. -/
theorem supplies_msgFields {mode : BitVec 2} {d : Descriptor} (hkey : d.key.isSome = true)
    (hdata : d.data.isSome = true) {f : DescField} (hf : f ∈ msgFields mode d.iv.isSome) :
    d.supplies f = true := by
  obtain rfl | rfl | ⟨rfl, -, hiv⟩ := mem_msgFields.1 hf
  · exact hkey
  · exact hdata
  · exact hiv

/-- R25, R61: the descriptor of a call supplies every field its command reads. -/
theorem Call.supplies_fieldsRead (c : Call) {f : DescField} (hf : f ∈ fieldsRead c.instr) :
    c.descriptor.supplies f = true := by
  cases c with
  | keySchedule key =>
    obtain rfl := List.mem_singleton.1 hf
    rfl
  | encryptBlock b ks =>
    obtain rfl | rfl := List.mem_pair.1 hf <;> rfl
  | decryptBlock b ks =>
    obtain rfl | rfl := List.mem_pair.1 hf <;> rfl
  | encrypt data key cbc iv pad =>
    rw [fieldsRead_kind, Call.instr, kind_encInstr] at hf
    exact supplies_msgFields rfl rfl hf
  | decrypt data key cbc iv pad =>
    rw [fieldsRead_kind, Call.instr, kind_decInstr] at hf
    exact supplies_msgFields rfl rfl hf

/-- Settles O5: the word of a call is that of its instruction, which decodes to it. -/
theorem callsAreOneCommand : Obligations.CallsAreOneCommand := by
  refine ⟨fun key => ⟨(Call.keySchedule key).decode_cmd, rfl⟩,
    fun b ks => ⟨(Call.encryptBlock b ks).decode_cmd, (Call.decryptBlock b ks).decode_cmd,
      rfl, rfl, rfl, rfl⟩,
    fun data key cbc iv pad => ?_, fun c => ⟨c.decode_cmd, fun f => c.supplies_fieldsRead⟩⟩
  have he : (Call.encrypt data key cbc iv pad).descriptor.cmd =
      msgWord 3 (if cbc then 1 else 0) pad.bits iv.isSome := encodeWord_encInstr _ _ _
  have hd : (Call.decrypt data key cbc iv pad).descriptor.cmd =
      msgWord 4 (if cbc then 1 else 0) pad.bits iv.isSome := encodeWord_decInstr _ _ _
  refine ⟨?_, ?_, ?_, ?_, ?_, ?_, ?_, ?_, Call.decode_cmd _, Call.decode_cmd _,
    rfl, rfl, rfl, rfl, rfl, rfl⟩
  · rw [he, opField_msgWord]
  · rw [he, modeField_msgWord]
  · exact (congrArg padField he).trans (padField_msgWord _ _ _ _)
  · rw [he, ivpField_msgWord]
  · rw [hd, opField_msgWord]
  · rw [hd, modeField_msgWord]
  · exact (congrArg padField hd).trans (padField_msgWord _ _ _ _)
  · rw [hd, ivpField_msgWord]

end Sys2Proof.Machine

/-! SUPPORT. 40_tables.md: what the specification says of the values of `SBOX` (R71) and
`CK` (R73). -/

namespace Sys2Proof.Machine

/-! ### The S-box (R71) -/

/-- R70: a read of `SBOX` reads the list of its bytes. -/
theorem sboxAt_romTables (b : Byte) :
    sboxAt romTables b = sboxBytes[b.toNat]'(sboxBytes_length.symm ▸ b.isLt) := by
  simp only [sboxAt, romTables, Vector.getElem_mk, List.getElem_toArray]

/-- R71: every byte value occurs in the table, compared as numbers. -/
theorem mem_sboxBytes (v : Byte) : v ∈ sboxBytes := by
  have h : ∀ n < 256, n ∈ sboxBytes.map BitVec.toNat := by decide +kernel
  obtain ⟨b, hb, hbv⟩ := List.mem_map.1 (h v.toNat v.isLt)
  exact BitVec.eq_of_toNat_eq hbv ▸ hb

/-- R71: each byte is the entry at the place where it first occurs. -/
theorem sboxAt_idxOf (v : Byte) :
    sboxAt romTables (BitVec.ofNat 8 (sboxBytes.idxOf v)) = v := by
  have hlt : sboxBytes.idxOf v < 2 ^ 8 :=
    (List.idxOf_lt_length_of_mem (mem_sboxBytes v)).trans_eq sboxBytes_length
  simp only [sboxAt_romTables, BitVec.toNat_ofNat, Nat.mod_eq_of_lt hlt, List.getElem_idxOf]

/-- R71: the one fixed point is `0xAB`. -/
theorem sboxAt_eq_self_iff (b : Byte) : sboxAt romTables b = b ↔ b = 0xAB := by
  revert b; decide +kernel

/-- R71: no entry is the complement of its index. -/
theorem sboxAt_ne_complement (b : Byte) : sboxAt romTables b ≠ b ^^^ 0xFF := by
  revert b; decide +kernel

/-- Settles O21: each byte has a place in the table, and the other facts are read off its 256
entries. -/
theorem sboxIsPermutation : Obligations.SboxIsPermutation :=
  ⟨fun v => ⟨_, sboxAt_idxOf v⟩, sboxAt_eq_self_iff, sboxAt_ne_complement, rfl, rfl, rfl, rfl⟩

/-! ### The key-schedule constants (R73) -/

/-- R73: `ck[i][j]`. -/
def ckByte (i : Fin 32) (j : Fin 4) : Byte := BitVec.ofNat 8 ((4 * i.val + j.val) * 7)

/-- R73, R74: the table holds the words the formula gives. -/
theorem ck_eq_be32 (i : Fin 32) :
    romTables.ck[i.val] = be32 (ckByte i 0) (ckByte i 1) (ckByte i 2) (ckByte i 3) := by
  revert i; decide

/-- Settles O22: `CK[i]` is the `BE32` of the formula's bytes. -/
theorem ckFollowsItsFormula : Obligations.CkFollowsItsFormula := by
  intro i j
  rw [ck_eq_be32, wordByte_be32, ckByte, BitVec.toNat_ofNat]

end Sys2Proof.Machine

/-! SUPPORT. 41_primitives.md: where `ROTL32` puts each bit (R80), `TAU` byte by byte (R81), and the
linearity of `L` and `LPRIME` (R82, R83). -/

namespace Sys2Proof.Machine

/-! ### Rotation (R80) -/

/-- R80: the rotation is the library's, whose bits are known. -/
theorem rotl32_eq_rotateLeft (x : Word) (n : Fin 32) : rotl32 x n = x.rotateLeft n.val := by
  rw [BitVec.rotateLeft_def, Nat.mod_eq_of_lt n.isLt, rotl32]

/-- R80: bit `i` of the rotated word was `n` places to the right, counted modulo 32. -/
theorem getLsbD_rotl32 (x : Word) (n : Fin 32) {i : Nat} (hi : i < 32) :
    (rotl32 x n).getLsbD i = x.getLsbD ((i + (32 - n.val)) % 32) := by
  have hn := n.isLt
  rw [rotl32_eq_rotateLeft, BitVec.getLsbD_rotateLeft_of_le hn]
  by_cases hwrap : i < n.val
  · have hfrom : (i + (32 - n.val)) % 32 = 32 - n.val + i := by omega
    simp only [hfrom, hwrap, decide_true, cond_true]
  · have hfrom : (i + (32 - n.val)) % 32 = i - n.val := by omega
    simp only [hfrom, hwrap, hi, decide_true, decide_false, cond_false, Bool.true_and]

/-- Settles O19: `n` places left and then `n` places right is the bit itself. -/
theorem rotationMovesBits : Obligations.RotationMovesBits := by
  intro x n k hk
  have hback : ((k + n.val) % 32 + (32 - n.val)) % 32 = k := by omega
  rw [getLsbD_rotl32 x n (Nat.mod_lt _ (by decide)), hback]

/-! ### Byte substitution (R81) -/

/-- R81: each byte is substituted in its own place. -/
theorem wordByte_tau (rom : Rom) (w : Word) (k : Fin 4) :
    wordByte (tau rom w) k = sboxAt rom (wordByte w k) :=
  wordByte_be32 (fun k => sboxAt rom (wordByte w k)) k

/-- R7: a word is determined by its four bytes. -/
theorem eq_of_wordByte_eq {v w : Word} (h : ∀ k, wordByte v k = wordByte w k) : v = w := by
  rw [← be32_wordByte v, h 0, h 1, h 2, h 3, be32_wordByte]

theorem tau_injective {rom : Rom} (hinj : ∀ a b : Byte, sboxAt rom a = sboxAt rom b → a = b) :
    Function.Injective (tau rom) := by
  intro v w hvw
  refine eq_of_wordByte_eq fun k => hinj _ _ ?_
  rw [← wordByte_tau, ← wordByte_tau, hvw]

/-- Settles O20: `TAU` is injective byte by byte, and there are finitely many words. -/
theorem tauSubstitutesBytes : Obligations.TauSubstitutesBytes :=
  ⟨wordByte_tau, fun _ hinj => Finite.injective_iff_bijective.1 (tau_injective hinj)⟩

/-! ### The diffusion networks (R82, R83) -/

/-- R80: a rotation is linear over XOR, since each of its bits is one bit of the word. -/
theorem rotl32_xor (a b : Word) (n : Fin 32) :
    rotl32 (a ^^^ b) n = rotl32 a n ^^^ rotl32 b n := by
  refine BitVec.eq_of_getLsbD_eq fun i hi => ?_
  simp only [BitVec.getLsbD_xor, getLsbD_rotl32 _ n hi]

theorem lin_xor (a b : Word) : lin (a ^^^ b) = lin a ^^^ lin b := by
  simp only [lin, rotl32_xor]
  ac_rfl

theorem linPrime_xor (a b : Word) : linPrime (a ^^^ b) = linPrime a ^^^ linPrime b := by
  simp only [linPrime, rotl32_xor]
  ac_rfl

/-- Settles O23: `L` and `LPRIME` are XORs of rotations, and the four words are computed. -/
theorem diffusionIsLinear : Obligations.DiffusionIsLinear :=
  ⟨lin_xor, linPrime_xor, rfl, rfl, rfl, rfl⟩

end Sys2Proof.Machine

/-! SUPPORT. 42_key_schedule.md: what `KEYSCHED` answers (R93), and that the recurrence of R92 runs
backwards, so the round keys determine the key. -/

namespace Sys2Proof.Machine

/-! ### The words of the schedule (R91, R92) -/

/-- R91: `K[j]` of the seed is a key word XORed with `FK[j]`. -/
theorem keySeq_seed (rom : Rom) (key : Block) (j : Fin 4) :
    keySeq rom key j.val = blockWord key j ^^^ rom.fk[j.val] := by
  match j with
  | 0 | 1 | 2 | 3 => rfl

/-- R92: `rk[i] = K[i+4]`. -/
@[simp] theorem keyScheduleOf_getElem (rom : Rom) (key : Block) {i : Nat} (h : i < 32) :
    (keyScheduleOf rom key)[i] = keySeq rom key (i + 4) := by
  simp [keyScheduleOf]

/-! ### The command (R93) -/

/-- R93: `KEYSCHED` with its key latched completes with the response of the key. -/
theorem exec_keysched_of_runsKey {s : State} {key : List Byte} (h : RunsKey s key) :
    exec .keysched s = .next (finish (keyschedResponse s.rom key) s) := by
  obtain ⟨hp, d, hl, hk⟩ := h
  rw [exec_kind]
  exact runKeysched_busy hp hl hk

/-- Settles O24: the sequence is `keySeq` of the key, and the two lengths are the two responses. -/
theorem keyschedExpandsTheKey : Obligations.KeyschedExpandsTheKey := by
  intro s key hrun
  have hexec := exec_keysched_of_runsKey hrun
  constructor
  · rintro k rfl
    rw [keyschedResponse, asBlock_toList] at hexec
    exact ⟨keySeq s.rom k, keyScheduleOf s.rom k, keySeq_seed s.rom k 0, keySeq_seed s.rom k 1,
      keySeq_seed s.rom k 2, keySeq_seed s.rom k 3,
      fun i hi => ⟨keySeq_add_four s.rom k hi, keyScheduleOf_getElem s.rom k hi⟩, hexec⟩
  · intro hlen
    rw [keyschedResponse, asBlock_eq_none.2 hlen] at hexec
    exact hexec

/-! ### The recurrence backwards (R92, derived) -/

/-- R92 solved for `K[i]`: the four words after it determine it. -/
theorem keySeq_eq_xor (rom : Rom) (key : Block) {n : Nat} (h : n < 32) :
    keySeq rom key n = keySeq rom key (n + 4) ^^^ tKey rom (keySeq rom key (n + 1) ^^^
      keySeq rom key (n + 2) ^^^ keySeq rom key (n + 3) ^^^ rom.ck[n]) := by
  rw [keySeq_add_four rom key h, BitVec.xor_assoc, BitVec.xor_self, BitVec.xor_zero]

/-- R92: the round keys are `K[4]` to `K[35]`, and the words before them follow from later ones. -/
theorem keySeq_eq_of_keyScheduleOf_eq {rom : Rom} {k k' : Block}
    (h : keyScheduleOf rom k = keyScheduleOf rom k') (m : Nat) (hm : m < 36) :
    keySeq rom k m = keySeq rom k' m := by
  by_cases hrk : 4 ≤ m
  · obtain ⟨i, rfl⟩ := Nat.exists_eq_add_of_le' hrk
    have hi : i < 32 := by omega
    rw [← keyScheduleOf_getElem rom k hi, ← keyScheduleOf_getElem rom k' hi, h]
  · have later : ∀ c, 0 < c → c ≤ 4 → keySeq rom k (m + c) = keySeq rom k' (m + c) :=
      fun c _ _ => keySeq_eq_of_keyScheduleOf_eq h (m + c) (by omega)
    rw [keySeq_eq_xor rom k (by omega), keySeq_eq_xor rom k' (by omega), later 1, later 2, later 3,
      later 4] <;> omega
termination_by 36 - m

/-- Settles O25: the schedules give the same seed words, and the words of a key make it up. -/
theorem keyExpansionIsInjective : Obligations.KeyExpansionIsInjective := by
  intro rom k k' h
  have hword : ∀ j : Fin 4, blockWord k j = blockWord k' j := fun j => by
    have hseed := keySeq_eq_of_keyScheduleOf_eq h j.val (by omega)
    rw [keySeq_seed, keySeq_seed] at hseed
    exact (BitVec.xor_left_inj _).1 hseed
  rw [← blockOfWords_blockWord k, ← blockOfWords_blockWord k']
  simp only [hword]

end Sys2Proof.Machine

/-! SUPPORT. 43_block_core.md: what `ENCBLK` and `DECBLK` answer (R101, R102), that the rounds of
R100 under the reversed round keys run back to the block (R103), and the official vector. -/

namespace Sys2Proof.Machine

/-! ### The rounds and the order of their keys (R100, R101, R102) -/

/-- R100: `X[j]` of the load is word `j` of the block. -/
theorem cryptSeq_seed (rom : Rom) (b : Block) (r : Schedule) (j : Fin 4) :
    cryptSeq rom b r j.val = blockWord b j := by
  match j with
  | 0 | 1 | 2 | 3 => rfl

/-- R101: `ENCBLK` uses the round keys in order. -/
@[simp] theorem forward_schedule (ks : Schedule) : KeyOrder.forward.schedule ks = ks := by
  ext i hi
  simp [KeyOrder.schedule, KeyOrder.index]

/-- R102: in round `i` the key used is `rk[31-i]`. -/
theorem reverse_schedule_getElem (ks : Schedule) {i : Nat} (h : i < 32) :
    (KeyOrder.reverse.schedule ks)[i] = ks[31 - i] := by
  simp [KeyOrder.schedule, KeyOrder.index]

@[simp] theorem reverse_reverse_schedule (ks : Schedule) :
    KeyOrder.reverse.schedule (KeyOrder.reverse.schedule ks) = ks := by
  ext i hi
  have hback : 31 - (31 - i) = i := by omega
  simp only [reverse_schedule_getElem _ hi, reverse_schedule_getElem ks (by omega : 31 - i < 32),
    hback]

/-! ### The commands (R101, R102) -/

/-- R101, R102: a block command with its operands latched completes with `CRYPT` of them. -/
theorem exec_block_of_runsBlock {i : Instr} {order : KeyOrder} (hi : kind i = .block order)
    {s : State} {b : Block} {ks : Schedule} (h : RunsBlock s b ks) :
    exec i s = .next (finish (.ofBlock (cryptOf s.rom b (order.schedule ks))) s) := by
  obtain ⟨hp, d, hl, hb, hks⟩ := h
  rw [exec_kind, hi]
  exact runBlock_busy order hp hl hb hks

/-- Settles O26: `X` is `cryptSeq` of the block under the schedule as it is. -/
theorem encblkRunsTheRounds : Obligations.EncblkRunsTheRounds := by
  intro s b ks hrun
  have hexec := exec_block_of_runsBlock (i := .encblk) rfl hrun
  rw [forward_schedule] at hexec
  have hseed := cryptSeq_seed s.rom b ks
  exact ⟨cryptSeq s.rom b ks, hseed 0, hseed 1, hseed 2, hseed 3,
    fun i hi => cryptSeq_add_four s.rom b ks hi, hexec⟩

/-- Settles O27: `X` is `cryptSeq` of the block under the reversed schedule. -/
theorem decblkRunsTheRoundsReversed : Obligations.DecblkRunsTheRoundsReversed := by
  intro s b ks hrun
  have hexec := exec_block_of_runsBlock (i := .decblk) rfl hrun
  have hseed := cryptSeq_seed s.rom b (KeyOrder.reverse.schedule ks)
  exact ⟨cryptSeq s.rom b (KeyOrder.reverse.schedule ks), hseed 0, hseed 1, hseed 2, hseed 3,
    fun i hi => by rw [cryptSeq_add_four s.rom b _ hi, reverse_schedule_getElem ks hi], hexec⟩

/-! ### The rounds backwards (R103) -/

/-- R103: round `m` solved for `X[m]`, in the order in which a round over the reversed words
computes it. -/
theorem cryptSeq_eq_xor (rom : Rom) (b : Block) (r : Schedule) {m : Nat} (h : m < 32) :
    cryptSeq rom b r m = cryptSeq rom b r (m + 4) ^^^ tData rom (cryptSeq rom b r (m + 3) ^^^
      cryptSeq rom b r (m + 2) ^^^ cryptSeq rom b r (m + 1) ^^^ r[m]) := by
  have hcomm : cryptSeq rom b r (m + 3) ^^^ cryptSeq rom b r (m + 2) ^^^ cryptSeq rom b r (m + 1) =
      cryptSeq rom b r (m + 1) ^^^ cryptSeq rom b r (m + 2) ^^^ cryptSeq rom b r (m + 3) := by ac_rfl
  rw [hcomm, cryptSeq_add_four rom b r h, BitVec.xor_assoc, BitVec.xor_self, BitVec.xor_zero]

/-- R32: each of four words is read back from the block they make. -/
theorem blockWord_blockOfWords (w : Fin 4 → Word) (j : Fin 4) :
    blockWord (blockOfWords (w 0) (w 1) (w 2) (w 3)) j = w j := by
  match j with
  | 0 | 1 | 2 | 3 => exact be32_wordByte _

/-- R100: word `j` of the output is `X[35-j]`. -/
theorem blockWord_cryptOf (rom : Rom) (b : Block) (r : Schedule) (j : Fin 4) :
    blockWord (cryptOf rom b r) j = cryptSeq rom b r (35 - j.val) :=
  blockWord_blockOfWords (fun j => cryptSeq rom b r (35 - j.val)) j

/-- R103: with the output as the block and the round keys reversed, the words are those of the first
run in reverse, `Y[n] = X[35-n]`. -/
theorem cryptSeq_cryptOf_reverse (rom : Rom) (b : Block) (r : Schedule) (n m : Nat)
    (h : n + m = 35) :
    cryptSeq rom (cryptOf rom b r) (KeyOrder.reverse.schedule r) n = cryptSeq rom b r m := by
  by_cases hseed : n < 4
  · have hm : m = 35 - n := by omega
    rw [cryptSeq_seed rom _ _ ⟨n, hseed⟩, blockWord_cryptOf, hm]
  · obtain ⟨i, rfl⟩ := Nat.exists_eq_add_of_le' (Nat.le_of_not_lt hseed)
    have hkey : 31 - i = m := by omega
    rw [cryptSeq_add_four rom _ _ (by omega), cryptSeq_eq_xor rom b r (by omega : m < 32),
      reverse_schedule_getElem r (by omega)]
    simp only [hkey]
    rw [cryptSeq_cryptOf_reverse rom b r i (m + 4) (by omega),
      cryptSeq_cryptOf_reverse rom b r (i + 1) (m + 3) (by omega),
      cryptSeq_cryptOf_reverse rom b r (i + 2) (m + 2) (by omega),
      cryptSeq_cryptOf_reverse rom b r (i + 3) (m + 1) (by omega)]
termination_by n

/-- R103: `CRYPT` under the reversed round keys undoes `CRYPT`, whatever the tables. -/
theorem cryptOf_cryptOf_reverse (rom : Rom) (b : Block) (r : Schedule) :
    cryptOf rom (cryptOf rom b r) (KeyOrder.reverse.schedule r) = b := by
  have hword : ∀ (n : Nat) (j : Fin 4), n + j.val = 35 →
      cryptSeq rom (cryptOf rom b r) (KeyOrder.reverse.schedule r) n = blockWord b j :=
    fun n j h => by rw [cryptSeq_cryptOf_reverse rom b r n j h, cryptSeq_seed]
  rw [cryptOf, hword 35 0 rfl, hword 34 1 rfl, hword 33 2 rfl, hword 32 3 rfl,
    blockOfWords_blockWord]

/-- R103: of two block commands in a row, the second with the round keys of the first reversed gives
the first one's block back. -/
theorem exec_block_undoes {i i' : Instr} {order order' : KeyOrder} (hi : kind i = .block order)
    (hi' : kind i' = .block order') {s s' : State} {b c : Block} {ks : Schedule}
    (hks : order'.schedule ks = KeyOrder.reverse.schedule (order.schedule ks))
    (hrom : s'.rom = s.rom) (hrun : RunsBlock s b ks) (hrun' : RunsBlock s' c ks) :
    ∃ t, exec i s = .next t ∧ (t.resp.blkout = some c →
      exec i' s' = .next (finish (.ofBlock b) s')) := by
  refine ⟨_, exec_block_of_runsBlock hi hrun, fun hc => ?_⟩
  have hc : cryptOf s.rom b (order.schedule ks) = c := Option.some.inj hc
  rw [exec_block_of_runsBlock hi' hrun', hrom, hks, ← hc, cryptOf_cryptOf_reverse]

/-- R103: a schedule that is another one word for word in reverse. -/
theorem eq_reverse_schedule {ks ks' : Schedule} (h : ∀ i (hi : i < 32), ks'[i] = ks[31 - i]) :
    ks' = KeyOrder.reverse.schedule ks := by
  ext i hi
  rw [h i hi, reverse_schedule_getElem ks hi]

/-- Settles O28: each order is the other one reversed, and the response is `CRYPT` of the block. -/
theorem decblkUndoesEncblk : Obligations.DecblkUndoesEncblk := by
  constructor
  · rintro s s' b c ks i i' (⟨rfl, rfl⟩ | ⟨rfl, rfl⟩) hrom hrun hrun'
    · exact exec_block_undoes rfl rfl (by rw [forward_schedule]) hrom hrun hrun'
    · exact exec_block_undoes rfl rfl (by rw [forward_schedule, reverse_reverse_schedule]) hrom
        hrun hrun'
  · intro s s' b ks ks' hks hrom hrun hrun'
    refine ⟨_, _, exec_block_of_runsBlock rfl hrun, exec_block_of_runsBlock rfl hrun', ?_⟩
    rw [finish_resp, finish_resp, hrom, forward_schedule, eq_reverse_schedule hks]

/-! ### The official vector (95_test_vectors.md V1) -/

/-- V1: the key, and the plaintext block. -/
def officialBlock : Block := #v[0x01, 0x23, 0x45, 0x67, 0x89, 0xAB, 0xCD, 0xEF,
  0xFE, 0xDC, 0xBA, 0x98, 0x76, 0x54, 0x32, 0x10]

/-- 95_test_vectors.md section 2.1: the schedule `RK0` of the official key. -/
def officialSchedule : Schedule := #v[
  0xF12186F9, 0x41662B61, 0x5A6AB19A, 0x7BA92077, 0x367360F4, 0x776A0C61, 0xB6BB89B3, 0x24763151,
  0xA520307C, 0xB7584DBD, 0xC30753ED, 0x7EE55B57, 0x6988608C, 0x30D895B7, 0x44BA14AF, 0x104495A1,
  0xD120B428, 0x73B55FA3, 0xCC874966, 0x92244439, 0xE89E641F, 0x98CA015A, 0xC7159060, 0x99E1FD2E,
  0xB79BD80C, 0x1D2115B0, 0x0E228AEB, 0xF1780C81, 0x428D3654, 0x62293496, 0x01CF72E5, 0x9124A012]

theorem keyScheduleOf_officialBlock :
    keyScheduleOf romTables officialBlock = officialSchedule := by
  decide +kernel

theorem cryptOf_officialBlock : cryptOf romTables officialBlock officialSchedule =
    #v[0x68, 0x1E, 0xDF, 0x34, 0xD2, 0x06, 0x96, 0x5E,
      0x86, 0xB3, 0xE9, 0x4F, 0x53, 0x6E, 0x42, 0x46] := by
  decide +kernel

/-- R26: the step after a descriptor is accepted runs its command word, with no host action to
come. -/
theorem step_accept {s : State} {d : Descriptor} {i : Instr} (hi : decode d.cmd = i)
    (hpend : s.host.pending = []) : step (accept d s) = exec i (accept d s) := by
  obtain ⟨hstep, -⟩ := stepRunsLatchedCommand (accept d s) d rfl rfl
  rw [hstep hpend, hi]

/-- R93: an accepted `KEYSCHED` of a 16-byte key answers the schedule of the key. -/
theorem step_accept_keysched {s : State} (k : Block) (hpend : s.host.pending = []) :
    let busy := accept ⟨0x00, some k.toList, none, none, none, none⟩ s
    step busy = .next (finish (.schedule (keyScheduleOf s.rom k)) busy) := by
  intro busy
  have hdecode : decode 0x00 = .keysched := by decide
  rw [step_accept hdecode hpend,
    exec_keysched_of_runsKey (key := k.toList) ⟨rfl, _, rfl, rfl⟩, keyschedResponse,
    asBlock_toList, accept_rom]

/-- R101: an accepted `ENCBLK` answers `CRYPT` of its block under its schedule. -/
theorem step_accept_encblk {s : State} (b : Block) (ks : Schedule) (hpend : s.host.pending = []) :
    let busy := accept ⟨0x01, none, none, none, some b, some ks⟩ s
    step busy = .next (finish (.ofBlock (cryptOf s.rom b ks)) busy) := by
  intro busy
  have hdecode : decode 0x01 = .encblk := by decide
  rw [step_accept hdecode hpend,
    exec_block_of_runsBlock (order := .forward) (b := b) (ks := ks) rfl ⟨rfl, _, rfl, rfl, rfl⟩,
    forward_schedule, accept_rom]

/-- Settles O29: the two steps give the key's schedule and `CRYPT` of the block under it, which are
the published words. -/
theorem officialVector : Obligations.OfficialVector := by
  have hkey := step_accept_keysched (s := State.reset) officialBlock rfl
  rw [State.reset_rom, keyScheduleOf_officialBlock] at hkey
  exact ⟨_, _, hkey, step_accept_encblk officialBlock officialSchedule rfl,
    congrArg some cryptOf_officialBlock⟩

end Sys2Proof.Machine

/-! SUPPORT. 44_padding.md: which tails the padding functions append to a buffer, and which they
remove (R110 to R113). -/

namespace Sys2Proof.Machine

/-! ### PKCS7 -/

/-- R110: the pad length is from 1 to 16 and fills the last block. -/
theorem pkcs7PadLen_bounds (n : Nat) :
    1 ≤ pkcs7PadLen n ∧ pkcs7PadLen n ≤ 16 ∧ (n + pkcs7PadLen n) % 16 = 0 := by
  unfold pkcs7PadLen
  omega

/-- R111: the last `n` bytes all equal `padLen` exactly when the buffer is what is before them and
then `n` times `padLen`. -/
theorem drop_all_beq_iff {b : List Byte} {n : Nat} {padLen : Byte} (hn : n ≤ b.length) :
    (b.drop (b.length - n)).all (· == padLen) = true ↔
      b.drop (b.length - n) = List.replicate n padLen := by
  simp only [List.all_eq_true, beq_iff_eq, List.eq_replicate_iff, List.length_drop]
  exact ⟨fun h => ⟨by omega, h⟩, And.right⟩

/-- R111: the checks pass exactly on a tail of `padLen` bytes of value `padLen`, from 1 to 16 of them,
and what is before it is left. -/
theorem pkcs7Strip_eq_some_iff {b m : List Byte} {padLen : Byte} :
    pkcs7Strip b padLen = some m ↔ 1 ≤ padLen.toNat ∧ padLen.toNat ≤ 16 ∧
      b = m ++ List.replicate padLen.toNat padLen := by
  constructor
  · intro h
    unfold pkcs7Strip at h
    split_ifs at h with hrange hlen htail
    cases h
    rw [drop_all_beq_iff (by omega)] at htail
    refine ⟨by omega, by omega, ?_⟩
    rw [← htail, List.take_append_drop]
  · rintro ⟨hpos, hle, rfl⟩
    have hrange : ¬ (padLen.toNat = 0 ∨ 16 < padLen.toNat) := by omega
    simp [pkcs7Strip, hrange]

/-- R111: `PKCS7.REMOVE` reads the tail's value off its last byte. -/
theorem pkcs7Remove_append_replicate (m : List Byte) {n : Nat} (hpos : 1 ≤ n) (hle : n ≤ 16) :
    pkcs7Remove (m ++ List.replicate n (BitVec.ofNat 8 n)) = some m := by
  have hvalue : (BitVec.ofNat 8 n).toNat = n := by
    rw [BitVec.toNat_ofNat]
    omega
  have hlast : (m ++ List.replicate n (BitVec.ofNat 8 n)).getLast? = some (BitVec.ofNat 8 n) := by
    simp [List.getLast?_append, List.getLast?_replicate, show n ≠ 0 by omega]
  rw [pkcs7Remove, hlast, Option.bind_some, pkcs7Strip_eq_some_iff, hvalue]
  exact ⟨hpos, hle, rfl⟩

/-- R111: what `PKCS7.REMOVE` answers on, and what it answers. -/
theorem pkcs7Remove_eq_some_iff {b m : List Byte} :
    pkcs7Remove b = some m ↔
      ∃ n, 1 ≤ n ∧ n ≤ 16 ∧ b = m ++ List.replicate n (BitVec.ofNat 8 n) := by
  constructor
  · intro h
    obtain ⟨last, -, hstrip⟩ := Option.bind_eq_some_iff.1 h
    obtain ⟨hpos, hle, hb⟩ := pkcs7Strip_eq_some_iff.1 hstrip
    refine ⟨last.toNat, hpos, hle, ?_⟩
    rwa [BitVec.ofNat_toNat, BitVec.setWidth_eq]
  · rintro ⟨n, hpos, hle, rfl⟩
    exact pkcs7Remove_append_replicate m hpos hle

/-- Settles O46: the tail `PKCS7.ADD` appends is of the pad length, which is one that
`PKCS7.REMOVE` accepts. -/
theorem pkcs7AddAndRemove : Obligations.Pkcs7AddAndRemove := by
  refine ⟨fun b m => pkcs7Remove_eq_some_iff, fun b => ?_, fun b => ?_⟩
  · obtain ⟨hpos, hle, hfill⟩ := pkcs7PadLen_bounds b.length
    exact ⟨_, hpos, hle, hfill, rfl⟩
  · obtain ⟨hpos, hle, -⟩ := pkcs7PadLen_bounds b.length
    exact pkcs7Remove_append_replicate b hpos hle

/-! ### ZERO -/

/-- R112: the zeros `ZERO.ADD` appends. -/
theorem zeroAdd_eq_append (b : List Byte) :
    ∃ n, n ≤ 15 ∧ (b.length + n) % 16 = 0 ∧ zeroAdd b = b ++ List.replicate n 0 := by
  by_cases hfull : b.length % 16 = 0
  · exact ⟨0, by omega, hfull, by simp [zeroAdd, hfull]⟩
  · exact ⟨16 - b.length % 16, by omega, by omega, if_neg hfull⟩

/-- R113: `ZERO.REMOVE` is the library's `rdropWhile`. -/
theorem zeroRemove_eq_rdropWhile (b : List Byte) : zeroRemove b = b.rdropWhile (· == 0) := rfl

/-- R113: what `ZERO.REMOVE` strips is zero bytes. -/
theorem eq_zeroRemove_append (b : List Byte) :
    ∃ n, b = zeroRemove b ++ List.replicate n 0 := by
  have hzeros : b.rtakeWhile (· == 0) = List.replicate (b.rtakeWhile (· == 0)).length 0 :=
    List.eq_replicate_length.2 fun _ hx => by simpa using List.mem_rtakeWhile_imp hx
  refine ⟨(b.rtakeWhile (· == 0)).length, ?_⟩
  rw [← hzeros, zeroRemove_eq_rdropWhile, List.rdropWhile_append_rtakeWhile]

/-- R113: `ZERO.REMOVE` keeps exactly the buffers that do not end in a zero byte. -/
theorem zeroRemove_eq_self_iff {b : List Byte} : zeroRemove b = b ↔ b.getLast? ≠ some 0 := by
  rw [zeroRemove_eq_rdropWhile, List.rdropWhile_eq_self_iff]
  by_cases hb : b = []
  · simp [hb]
  · simp [hb, List.getLast?_eq_getLast_of_ne_nil hb]

/-- R113: what `ZERO.REMOVE` leaves does not end in a zero byte. -/
theorem zeroRemove_getLast?_ne (b : List Byte) : (zeroRemove b).getLast? ≠ some 0 :=
  zeroRemove_eq_self_iff.1 (List.rdropWhile_idempotent (· == 0) b)

/-- R113: `ZERO.REMOVE` strips zeros put at the end, whatever was there before. -/
theorem zeroRemove_append_zeros (b : List Byte) (n : Nat) :
    zeroRemove (b ++ List.replicate n 0) = zeroRemove b := by
  induction n with
  | zero => rw [List.replicate_zero, List.append_nil]
  | succ n ih =>
    rw [List.replicate_succ', ← List.append_assoc, zeroRemove_eq_rdropWhile,
      List.rdropWhile_concat_pos _ _ _ rfl, ← zeroRemove_eq_rdropWhile, ih]

/-- Settles O47: what `ZERO.REMOVE` strips is zeros, all of them, and so those `ZERO.ADD` appended. -/
theorem zeroAddAndRemove : Obligations.ZeroAddAndRemove := by
  refine ⟨zeroAdd_eq_append, fun b => ⟨eq_zeroRemove_append b, zeroRemove_getLast?_ne b⟩, ?_⟩
  intro b hlast
  obtain ⟨n, -, -, hadd⟩ := zeroAdd_eq_append b
  rw [hadd, zeroRemove_append_zeros, zeroRemove_eq_self_iff.2 hlast]

end Sys2Proof.Machine

/-! SUPPORT. 45_modes.md: what an `ENCRYPT` or `DECRYPT` word answers once `VALIDATE` passes (R120, R125,
R126), the blocks of ECB and CBC one by one (R121 to R124), and what follows of both (R127 to R129). -/

namespace Sys2Proof.Machine

/-! ### `VALIDATE` (R120) -/

/-- R53: exactly the `PAD` of a padding selects it. -/
theorem selectPadding_eq_ok {bits : BitVec 2} {pad : Padding} :
    selectPadding bits = .ok pad ↔ bits = pad.bits := by
  revert bits
  cases pad <;> decide

/-- R120: `VALIDATE` passes exactly when each of its checks does, and leaves what they select. -/
theorem validate_eq_ok {mode pad : BitVec 2} {ops : MsgOperands} {sel : Selection} :
    validate mode pad ops = .ok sel ↔ ops.key = sel.key.toList ∧
      selectChain mode ops.iv = .ok sel.chain ∧ pad = sel.pad.bits := by
  obtain ⟨k, chain, padding⟩ := sel
  rw [← asBlock_eq_some, ← selectPadding_eq_ok]
  unfold validate
  cases asBlock ops.key with
  | none => simp
  | some key =>
    cases selectChain mode ops.iv with
    | error e => simp
    | ok c => cases selectPadding pad <;> simp

/-- R120 step 2, R54: the chaining mode that a mode, the bit `IVP` and an IV field select. -/
inductive SelectsChain : Bool → Bool → Option (List Byte) → Chain → Prop where
  | ecb (ivp : Bool) (iv : Option (List Byte)) : SelectsChain false ivp iv .ecb
  | cbc (iv : Block) : SelectsChain true true (some iv.toList) (.cbc iv)

/-- R54: a 16-byte IV serves both modes, in CBC when `IVP` is set. -/
theorem selectsChain_of_block {cbc ivp : Bool} (iv : Block) (h : cbc = true → ivp = true) :
    SelectsChain cbc ivp (some iv.toList) (if cbc then .cbc iv else .ecb) := by
  cases cbc with
  | false => exact .ecb ivp _
  | true =>
    obtain rfl := h rfl
    exact .cbc iv

/-- R25: the IV field is there when it is read. -/
theorem SelectsChain.iv_isSome {cbc ivp : Bool} {iv : Option (List Byte)} {chain : Chain}
    (h : SelectsChain cbc ivp iv chain) :
    (if cbc then 1#2 else 0#2) = 1#2 → ivp = true → iv.isSome = true := by
  cases h with
  | ecb => exact nofun
  | cbc iv => exact fun _ _ => rfl

/-- R120: with a 16-byte key `VALIDATE` passes, the padding being one that exists. -/
theorem SelectsChain.validate {cbc ivp : Bool} {iv : Option (List Byte)} {chain : Chain}
    (h : SelectsChain cbc ivp iv chain) (k : Block) (pad : Padding) (data : List Byte) :
    let mode := if cbc then 1#2 else 0#2
    Machine.validate mode pad.bits ⟨k.toList, if mode = 1#2 ∧ ivp = true then iv else none, data⟩ =
      .ok ⟨k, chain, pad⟩ := by
  refine validate_eq_ok.2 ⟨rfl, ?_, rfl⟩
  cases h with
  | ecb => rfl
  | cbc iv => simp [selectChain]

theorem kind_encInstr_bits (cbc : Bool) (pad : Padding) (ivp : Bool) :
    kind (encInstr cbc pad ivp) = .encrypt (if cbc then 1#2 else 0#2) pad.bits ivp := by
  rw [kind_encInstr]
  cases pad <;> rfl

theorem kind_decInstr_bits (cbc : Bool) (pad : Padding) (ivp : Bool) :
    kind (decInstr cbc pad ivp) = .decrypt (if cbc then 1#2 else 0#2) pad.bits ivp := by
  rw [kind_decInstr]
  cases pad <;> rfl

/-- R125: an `ENC` word with a 16-byte key, and in CBC a 16-byte IV, completes with the mode
controller's output on what the padding made of `DATA`. -/
theorem exec_encInstr {s : State} {k : Block} {iv : Option (List Byte)} {data p : List Byte}
    {cbc ivp : Bool} {chain : Chain} {pad : Padding} (hc : SelectsChain cbc ivp iv chain)
    (h : RunsMessage s k.toList iv data) (hp : padAddOf pad data = .ok p) :
    exec (encInstr cbc pad ivp) s =
      .next (finish (.message (encChainOf s.rom (keyScheduleOf s.rom k) chain p)) s) := by
  rw [exec_encrypt_of_runsMessage (kind_encInstr_bits cbc pad ivp) h hc.iv_isSome, encryptOf,
    hc.validate, except_ok_bind, hp]
  rfl

/-- R126: a `DEC` word with a 16-byte key, whole blocks, and in CBC a 16-byte IV, completes with what
the padding leaves of the mode controller's output. -/
theorem exec_decInstr {s : State} {k : Block} {iv : Option (List Byte)} {data m : List Byte}
    {cbc ivp : Bool} {chain : Chain} {pad : Padding} (hc : SelectsChain cbc ivp iv chain)
    (h : RunsMessage s k.toList iv data) (hlen : data.length % 16 = 0)
    (hm : padRemoveOf pad (decChainOf s.rom (keyScheduleOf s.rom k) chain data) = .ok m) :
    exec (decInstr cbc pad ivp) s = .next (finish (.message m) s) := by
  rw [exec_decrypt_of_runsMessage (kind_decInstr_bits cbc pad ivp) h hc.iv_isSome, decryptOf,
    hc.validate, except_ok_bind, if_pos hlen, hm]
  rfl

/-! ### The blocks of ECB and CBC (R121 to R124) -/

/-- R114: what `PAD = NONE` accepts it leaves as it is. -/
theorem padAddOf_none_eq_ok {b p : List Byte} :
    padAddOf .none b = .ok p ↔ b.length % 16 = 0 ∧ b = p := by
  rw [padAddOf]
  split <;> simp [*]

/-- R110, R112, R114: a padded plaintext is of whole blocks. -/
theorem padAddOf_length_mod {pad : Padding} {b p : List Byte} (h : padAddOf pad b = .ok p) :
    p.length % 16 = 0 := by
  cases pad with
  | none =>
    obtain ⟨hmod, rfl⟩ := padAddOf_none_eq_ok.1 h
    exact hmod
  | pkcs7 =>
    cases h
    obtain ⟨n, -, -, hfill, hadd⟩ := pkcs7AddAndRemove.2.1 b
    rw [hadd, List.length_append, List.length_replicate, hfill]
  | zero =>
    cases h
    obtain ⟨n, -, hfill, hadd⟩ := zeroAdd_eq_append b
    rw [hadd, List.length_append, List.length_replicate, hfill]

/-- R121, R123: the output on whole blocks is as long as the input. -/
theorem encChainOf_length_of_mod (rom : Rom) (ks : Schedule) (chain : Chain) {p : List Byte}
    (h : p.length % 16 = 0) : (encChainOf rom ks chain p).length = p.length := by
  rw [encChainOf_length]
  omega

/-- R121: the blocks of an ECB ciphertext. -/
theorem blocksOf_encChainOf_ecb (rom : Rom) (ks : Schedule) (p : List Byte) :
    blocksOf (encChainOf rom ks .ecb p) = (blocksOf p).map (encBlockOf rom ks) :=
  blocksOf_bytesOf _

/-- R123: the blocks of a CBC ciphertext. -/
theorem blocksOf_encChainOf_cbc (rom : Rom) (ks : Schedule) (iv : Block) (p : List Byte) :
    blocksOf (encChainOf rom ks (.cbc iv) p) = cbcEncBlocks rom ks iv (blocksOf p) :=
  blocksOf_bytesOf _

/-- R123: each plaintext block meets the ciphertext block before it, the first one the IV. -/
theorem cbcEncBlocks_eq_zipWith (rom : Rom) (ks : Schedule) (prev : Block) (bs : List Block) :
    cbcEncBlocks rom ks prev bs = List.zipWith (fun b prev => encBlockOf rom ks (xor16 b prev)) bs
      (prev :: cbcEncBlocks rom ks prev bs) := by
  induction bs generalizing prev with
  | nil => rfl
  | cons b bs ih =>
    rw [cbcEncBlocks, List.zipWith_cons_cons]
    exact congrArg _ (ih _)

/-- R124: each decrypted block meets the ciphertext block before it, the first one the IV. -/
theorem cbcDecBlocks_eq_zipWith (rom : Rom) (ks : Schedule) (prev : Block) (cs : List Block) :
    cbcDecBlocks rom ks prev cs =
      List.zipWith (fun c prev => xor16 (decBlockOf rom ks c) prev) cs (prev :: cs) := by
  induction cs generalizing prev with
  | nil => rfl
  | cons c cs ih =>
    rw [cbcDecBlocks, List.zipWith_cons_cons]
    exact congrArg _ (ih _)

/-- Settles O30: the response is the blocks of the padded plaintext, each encrypted. -/
theorem encryptEcbResult : Obligations.EncryptEcbResult := by
  intro s k iv data p pad ivp h hp
  refine ⟨_, exec_encInstr (.ecb ivp iv) h hp,
    encChainOf_length_of_mod _ _ _ (padAddOf_length_mod hp), fun j => ?_⟩
  rw [blocksOf_encChainOf_ecb, List.getElem?_map]

/-- Settles O31: entry `j` of the zip of the plaintext blocks with the IV and the ciphertext. -/
theorem encryptCbcResult : Obligations.EncryptCbcResult := by
  intro s k iv data p pad h hp enc
  refine ⟨_, exec_encInstr (.cbc iv) h hp,
    encChainOf_length_of_mod _ _ _ (padAddOf_length_mod hp), ?_, fun j b prev hb hprev => ?_⟩
  · rw [blocksOf_encChainOf_cbc]
    cases blocksOf p <;> rfl
  · rw [blocksOf_encChainOf_cbc] at hprev ⊢
    rw [cbcEncBlocks_eq_zipWith, List.getElem?_zipWith, hb, List.getElem?_cons_succ, hprev]

/-- R33: blocks put together are whole blocks. -/
theorem bytesOf_length_mod (bs : List Block) : (bytesOf bs).length % 16 = 0 := by
  rw [bytesOf_length, Nat.mul_mod_right]

/-- R33: a buffer of whole blocks with the blocks `bs` is their bytes. -/
theorem eq_bytesOf_of_blocksOf {p : List Byte} {bs : List Block} (hlen : p.length % 16 = 0)
    (h : blocksOf p = bs) : p = bytesOf bs := by
  rw [← h, bytesOf_blocksOf hlen]

/-- Settles O32: the buffer `p` is the ECB controller's output. -/
theorem decryptEcbResult : Obligations.DecryptEcbResult := by
  intro s k iv data p m pad ivp h hlen hplen hblocks hm
  refine exec_decInstr (.ecb ivp iv) h hlen ?_
  rwa [decChainOf, ← eq_bytesOf_of_blocksOf (hplen ▸ hlen)]
  apply List.ext_getElem?
  intro j
  rw [hblocks, List.getElem?_map]

/-- Settles O33: the buffer `p` is the CBC controller's output, block by block. -/
theorem decryptCbcResult : Obligations.DecryptCbcResult := by
  intro s k iv data p m pad h hlen hplen hfirst hnext hm
  refine exec_decInstr (.cbc iv) h hlen ?_
  rwa [decChainOf, ← eq_bytesOf_of_blocksOf (hplen ▸ hlen)]
  have hcount : (blocksOf p).length = (blocksOf data).length := by
    rw [blocksOf_length, blocksOf_length, hplen]
  rw [cbcDecBlocks_eq_zipWith]
  apply List.ext_getElem?
  intro j
  rw [List.getElem?_zipWith]
  cases j with
  | zero =>
    rw [hfirst]
    cases (blocksOf data)[0]? <;> rfl
  | succ j =>
    rw [List.getElem?_cons_succ]
    by_cases hj : j + 1 < (blocksOf data).length
    · have hc := List.getElem?_eq_getElem hj
      have hprev := List.getElem?_eq_getElem (Nat.lt_of_succ_lt hj)
      rw [hnext j _ _ hc hprev, hc, hprev]
    · rw [List.getElem?_eq_none (by omega), List.getElem?_eq_none (by omega)]

/-! ### Decrypting what was encrypted (R127) -/

/-- R103: `DEC1` undoes `ENC1`. -/
@[simp] theorem decBlockOf_encBlockOf (rom : Rom) (ks : Schedule) (b : Block) :
    decBlockOf rom ks (encBlockOf rom ks b) = b := by
  rw [decBlockOf, encBlockOf, forward_schedule, cryptOf_cryptOf_reverse]

/-- R103: `ENC1` undoes `DEC1`. -/
theorem encBlockOf_decBlockOf (rom : Rom) (ks : Schedule) (c : Block) :
    encBlockOf rom ks (decBlockOf rom ks c) = c := by
  have hundo := cryptOf_cryptOf_reverse rom c (KeyOrder.reverse.schedule ks)
  simpa only [encBlockOf, decBlockOf, forward_schedule, reverse_reverse_schedule] using hundo

/-- R103: `DEC1` is one-to-one. -/
theorem decBlockOf_injective (rom : Rom) (ks : Schedule) :
    Function.Injective (decBlockOf rom ks) :=
  Function.LeftInverse.injective (encBlockOf_decBlockOf rom ks)

theorem xor16_getElem (a b : Block) {i : Nat} (h : i < 16) : (xor16 a b)[i] = a[i] ^^^ b[i] := by
  simp [xor16]

/-- XOR with the same block twice changes nothing. -/
@[simp] theorem xor16_xor16_cancel (a b : Block) : xor16 (xor16 a b) b = a := by
  ext i hi : 1
  rw [xor16_getElem, xor16_getElem, BitVec.xor_assoc, BitVec.xor_self, BitVec.xor_zero]

theorem xor16_left_injective (b : Block) : Function.Injective (xor16 · b) :=
  Function.LeftInverse.injective (g := (xor16 · b)) (xor16_xor16_cancel · b)

theorem xor16_assoc (a b c : Block) : xor16 (xor16 a b) c = xor16 a (xor16 b c) := by
  ext i hi : 1
  simp only [xor16_getElem, BitVec.xor_assoc]

/-- Only the zero mask leaves a block as it is. -/
theorem xor16_eq_self_iff {a mask : Block} : xor16 a mask = a ↔ mask = .replicate 16 0 := by
  simp only [Vector.ext_iff, xor16_getElem, Vector.getElem_replicate]
  refine forall_congr' fun i => forall_congr' fun hi => ?_
  exact xor_left_eq_self_iff

/-- R127: CBC decryption under the same IV undoes CBC encryption. -/
@[simp] theorem cbcDecBlocks_cbcEncBlocks (rom : Rom) (ks : Schedule) (prev : Block)
    (bs : List Block) : cbcDecBlocks rom ks prev (cbcEncBlocks rom ks prev bs) = bs := by
  induction bs generalizing prev with
  | nil => rfl
  | cons b bs ih => rw [cbcEncBlocks, cbcDecBlocks, ih, decBlockOf_encBlockOf, xor16_xor16_cancel]

/-- R127: on whole blocks the mode controller of `DECRYPT` undoes that of `ENCRYPT`. -/
theorem decChainOf_encChainOf (rom : Rom) (ks : Schedule) (chain : Chain) {p : List Byte}
    (h : p.length % 16 = 0) : decChainOf rom ks chain (encChainOf rom ks chain p) = p := by
  cases chain with
  | ecb =>
    have hundo : decBlockOf rom ks ∘ encBlockOf rom ks = id :=
      funext (decBlockOf_encBlockOf rom ks)
    rw [decChainOf, blocksOf_encChainOf_ecb, List.map_map, hundo, List.map_id, bytesOf_blocksOf h]
  | cbc iv =>
    rw [decChainOf, blocksOf_encChainOf_cbc, cbcDecBlocks_cbcEncBlocks, bytesOf_blocksOf h]

/-- R114: only `PAD = NONE` on a last block that is not whole refuses a plaintext. -/
theorem exists_padAddOf_eq_ok {pad : Padding} {b : List Byte}
    (h : pad = .none → b.length % 16 = 0) : ∃ p, padAddOf pad b = .ok p := by
  cases pad with
  | none => exact ⟨b, padAddOf_none_eq_ok.2 ⟨h rfl, rfl⟩⟩
  | pkcs7 => exact ⟨_, rfl⟩
  | zero => exact ⟨_, rfl⟩

/-- R111, R113, R115: removing a padding undoes adding it, `ZERO` when there was no trailing zero. -/
theorem padRemoveOf_padAddOf {pad : Padding} {b p : List Byte} (h : padAddOf pad b = .ok p)
    (hz : pad = .zero → b.getLast? ≠ some 0) : padRemoveOf pad p = .ok b := by
  cases pad with
  | none =>
    obtain ⟨-, rfl⟩ := padAddOf_none_eq_ok.1 h
    rfl
  | pkcs7 =>
    cases h
    rw [padRemoveOf, pkcs7AddAndRemove.2.2 b]
  | zero =>
    cases h
    rw [padRemoveOf, zeroAddAndRemove.2.2 b (hz rfl)]

/-- Settles O43: the mode controllers undo each other on the padded plaintext, and then the padding
functions do. -/
theorem decryptUndoesEncrypt : Obligations.DecryptUndoesEncrypt := by
  intro s s' k iv data c cbc pad ivp ivp' hrom hivp hzero hnone h h'
  obtain ⟨p, hp⟩ := exists_padAddOf_eq_ok hnone
  have hmod := padAddOf_length_mod hp
  refine ⟨_, exec_encInstr (selectsChain_of_block iv fun hc => (hivp hc).1) h hp, rfl,
    fun hout => ?_⟩
  obtain rfl := Option.some.inj hout
  refine exec_decInstr (selectsChain_of_block iv fun hc => (hivp hc).2) h' ?_ ?_
  · rw [encChainOf_length_of_mod _ _ _ hmod, hmod]
  · rw [hrom, decChainOf_encChainOf _ _ _ hmod]
    exact padRemoveOf_padAddOf hp hzero

/-! ### A change of one block of the ciphertext (R128) -/

/-- R124, R126: `DEC.CBC.NONE` completes with the plaintext blocks of CBC. -/
theorem exec_decCbcNone {s : State} {k iv : Block} {cs : List Block}
    (h : RunsMessage s k.toList (some iv.toList) (bytesOf cs)) :
    exec (.decCbcNone true) s = .next
      (finish (.message (bytesOf (cbcDecBlocks s.rom (keyScheduleOf s.rom k) iv cs))) s) := by
  refine exec_decInstr (pad := .none) (.cbc iv) h (bytesOf_length_mod cs) ?_
  rw [decChainOf, blocksOf_bytesOf]
  rfl

/-- R124: plaintext block `j` is of blocks `j + 1` and `j` of the IV and then the ciphertext. -/
theorem cbcDecBlocks_getElem? (rom : Rom) (ks : Schedule) (iv : Block) (cs : List Block) (j : Nat) :
    (cbcDecBlocks rom ks iv cs)[j]? = (iv :: cs)[j + 1]?.bind fun c =>
      (iv :: cs)[j]?.map (xor16 (decBlockOf rom ks c)) := by
  rw [cbcDecBlocks_eq_zipWith, List.getElem?_zipWith, List.getElem?_cons_succ]
  cases cs[j]? with
  | none => rfl
  | some c => cases (iv :: cs)[j]? <;> rfl

/-- R128: one block of the IV and the ciphertext is XORed with a mask. -/
theorem cbcDecBlocks_modify (rom : Rom) (ks : Schedule) {iv iv' mask : Block} {cs cs' : List Block}
    {m : Nat} (h : iv' :: cs' = (iv :: cs).modify m (xor16 · mask)) :
    (cbcDecBlocks rom ks iv' cs')[m]? = (cbcDecBlocks rom ks iv cs)[m]?.map (xor16 · mask) ∧
    ∀ j, j ≠ m → j + 1 ≠ m →
      (cbcDecBlocks rom ks iv' cs')[j]? = (cbcDecBlocks rom ks iv cs)[j]? := by
  simp only [cbcDecBlocks_getElem?, h]
  refine ⟨?_, fun j hj hj1 => ?_⟩
  · rw [List.getElem?_modify_eq, List.getElem?_modify_ne _ _ (by omega)]
    cases (iv :: cs)[m + 1]? with
    | none => rfl
    | some c =>
      cases (iv :: cs)[m]? with
      | none => rfl
      | some prev => exact congrArg some (xor16_assoc _ _ _).symm
  · rw [List.getElem?_modify_ne _ _ (Ne.symm hj), List.getElem?_modify_ne _ _ (Ne.symm hj1)]

/-- R128: a masked block is decrypted to another one. -/
theorem cbcDecBlocks_modify_ne (rom : Rom) (ks : Schedule) {iv iv' mask : Block}
    {cs cs' : List Block} {n : Nat} (h : iv' :: cs' = (iv :: cs).modify (n + 1) (xor16 · mask))
    (hn : n < cs.length) (hmask : mask ≠ .replicate 16 0) :
    (cbcDecBlocks rom ks iv' cs')[n]? ≠ (cbcDecBlocks rom ks iv cs)[n]? := by
  intro heq
  have hprev : (iv :: cs)[n]? = some ((iv :: cs)[n]'(Nat.lt_succ_of_lt hn)) :=
    List.getElem?_eq_getElem _
  simp only [cbcDecBlocks_getElem?, h, List.getElem?_modify_eq,
    List.getElem?_modify_ne _ _ (Nat.succ_ne_self n), hprev, List.getElem?_cons_succ,
    List.getElem?_eq_getElem hn, Option.map_some] at heq
  have hdec := xor16_left_injective _ (Option.some.inj heq)
  exact hmask (xor16_eq_self_iff.1 (decBlockOf_injective rom ks hdec))

/-- Settles O44: the mask changes one entry of the IV followed by the ciphertext, of which each
plaintext block reads two. -/
theorem cbcErrorPropagation : Obligations.CbcErrorPropagation := by
  intro s s' k iv iv' mask cs cs' i hrom hmask h h' hsome hnone
  have hmod : iv' :: cs' = (iv :: cs).modify (i.elim 0 (· + 1)) (xor16 · mask) := by
    cases i with
    | none =>
      obtain ⟨rfl, rfl⟩ := hnone rfl
      rfl
    | some n =>
      obtain ⟨rfl, -, c, hc, rfl⟩ := hsome n rfl
      rw [Option.elim_some, List.modify_succ_cons, List.modify_eq_set_getElem?, hc]
      rfl
  obtain ⟨hnext, hkept⟩ := cbcDecBlocks_modify s.rom (keyScheduleOf s.rom k) hmod
  have hlen : cs'.length = cs.length := by
    simpa using congrArg List.length hmod
  refine ⟨_, _, _, _, exec_decCbcNone h, exec_decCbcNone h', rfl, rfl, cbcDecBlocks_length _ _ _ _,
    (cbcDecBlocks_length _ _ _ _).trans hlen, ?_⟩
  rw [hrom]
  refine ⟨?_, hnext, fun j hj hi => hkept j hj ?_⟩
  · rintro n rfl
    obtain ⟨-, hn, -⟩ := hsome n rfl
    exact cbcDecBlocks_modify_ne s.rom _ hmod (Nat.lt_of_succ_lt hn) hmask
  · cases i with
    | none => exact Nat.succ_ne_zero j
    | some n =>
      exact fun hjn => hi (congrArg some (Nat.succ.inj hjn))

/-! ### A message in two runs (R129) -/

/-- R33: the blocks of whole blocks and then a rest. -/
theorem blocksOf_bytesOf_append (a : List Block) {p : List Byte} (h : p.length % 16 = 0) :
    blocksOf (bytesOf a ++ p) = a ++ blocksOf p := by
  rw [← blocksOf_bytesOf (a ++ blocksOf p), bytesOf_append, bytesOf_blocksOf h]

/-- R116: whole blocks in front of a message stay in front of its padded form. -/
theorem padAddOf_bytesOf_append (a : List Block) {pad : Padding} {q p : List Byte}
    (h : padAddOf pad q = .ok p) : padAddOf pad (bytesOf a ++ q) = .ok (bytesOf a ++ p) := by
  have hmod : (bytesOf a ++ q).length % 16 = q.length % 16 := by
    rw [List.length_append, bytesOf_length, Nat.mul_add_mod]
  cases pad with
  | none =>
    obtain ⟨hq, rfl⟩ := padAddOf_none_eq_ok.1 h
    exact padAddOf_none_eq_ok.2 ⟨hmod.trans hq, rfl⟩
  | pkcs7 =>
    cases h
    simp only [padAddOf, pkcs7Add, pkcs7PadLen, hmod, List.append_assoc]
  | zero =>
    cases h
    simp only [padAddOf, zeroAdd, hmod]
    split
    · rfl
    · rw [List.append_assoc]

/-- Settles O45: the blocks after `a` are chained to the last ciphertext block of `a`. -/
theorem cbcRunsMayBeSplit : Obligations.CbcRunsMayBeSplit := by
  intro s s1 s2 k iv iv2 a q pad hrom1 hrom2 hnone h h1 h2
  obtain ⟨p, hp⟩ := exists_padAddOf_eq_ok hnone
  have hpa : padAddOf .none (bytesOf a) = .ok (bytesOf a) :=
    padAddOf_none_eq_ok.2 ⟨bytesOf_length_mod a, rfl⟩
  refine ⟨_, _, _, _, _, exec_encInstr (pad := .none) (.cbc iv) h1 hpa, rfl,
    exec_encInstr (.cbc iv2) h2 hp, rfl,
    exec_encInstr (.cbc iv) h (padAddOf_bytesOf_append a hp), fun hiv => ?_⟩
  subst hiv
  refine congrArg Response.message ?_
  rw [hrom1, hrom2, encChainOf, encChainOf, blocksOf_bytesOf,
    blocksOf_bytesOf_append a (padAddOf_length_mod hp), cbcEncBlocks_append, bytesOf_append]

/-! ### The first cause that applies (R149, R120) -/

/-- The error a computation ends in, in the form in which a search through a list of causes answers
it. -/
def reportedCause {α : Type} : Except ErrorKind α → Option (Bool × ErrorKind)
  | .ok _ => none
  | .error e => some (true, e)

/-- R120: of two computations in a row the first one's error is reported, else the second one's. -/
theorem reportedCause_bind {α β : Type} (x : Except ErrorKind α) (f : α → Except ErrorKind β)
    (cause : Option (Bool × ErrorKind)) (h : ∀ a, x = .ok a → reportedCause (f a) = cause) :
    reportedCause (x >>= f) = (reportedCause x).or cause := by
  cases x with
  | error e => rfl
  | ok a => exact h a rfl

/-- A result that is only renamed reports what it reported. -/
theorem reportedCause_bind_ok {α β : Type} (x : Except ErrorKind α) (f : α → β) :
    reportedCause (x >>= fun a => .ok (f a)) = reportedCause x := by
  cases x <;> rfl

/-- R149: the causes that `VALIDATE` looks at, in the order of steps 1 to 4 of R120. -/
def validateCauses (mode pad : BitVec 2) (ops : MsgOperands) : List (Bool × ErrorKind) := [
  (ops.key.length != 16, .invalidKeyLength),
  (mode == 1#2 && (ops.iv.getD []).length != 16, .invalidIVLength),
  (mode == 2#2 || mode == 3#2, .unsupportedMode),
  (pad == 3#2, .unsupportedPadding)]

/-- R120 steps 2 and 3: which cause the choice of the chaining mode reports. -/
theorem reportedCause_selectChain (mode : BitVec 2) (iv : Option (List Byte)) :
    reportedCause (selectChain mode iv) = [
      (mode == 1#2 && (iv.getD []).length != 16, ErrorKind.invalidIVLength),
      (mode == 2#2 || mode == 3#2, .unsupportedMode)].find? (·.1) := by
  have hmode : mode = 0#2 ∨ mode = 1#2 ∨ mode = 2#2 ∨ mode = 3#2 := by revert mode; decide
  obtain rfl | rfl | rfl | rfl := hmode
  · rfl
  · cases iv with
    | none => rfl
    | some v =>
      cases hv : asBlock v with
      | none => simp [selectChain, hv, asBlock_eq_none.1 hv, reportedCause]
      | some b => simp [selectChain, asBlock_eq_some.1 hv, reportedCause]
  · rfl
  · rfl

/-- R120 step 4: which cause the choice of the padding reports. -/
theorem reportedCause_selectPadding (pad : BitVec 2) :
    reportedCause (selectPadding pad) =
      [(pad == 3#2, ErrorKind.unsupportedPadding)].find? (·.1) := by
  revert pad
  decide

/-- R120: `VALIDATE` reports the first of its causes that applies. -/
theorem reportedCause_validate (mode pad : BitVec 2) (ops : MsgOperands) :
    reportedCause (validate mode pad ops) = (validateCauses mode pad ops).find? (·.1) := by
  unfold validate
  cases hk : asBlock ops.key with
  | none => simp [validateCauses, asBlock_eq_none.1 hk, reportedCause]
  | some k =>
    have hlen : (ops.key.length != 16) = false := by simp [asBlock_eq_some.1 hk]
    rw [reportedCause_bind _ _ _ fun chain _ => reportedCause_bind_ok (selectPadding pad) _,
      reportedCause_selectChain, reportedCause_selectPadding, ← List.find?_append]
    simp [validateCauses, hlen]

/-- R120 step 5: a length that is no multiple of 16, for `DECRYPT` and for `PAD = NONE`. -/
def lengthCause (dec : Bool) (pad : BitVec 2) (data : List Byte) : Bool × ErrorKind :=
  ((dec || pad == 0#2) && data.length % 16 != 0, .invalidInputLength)

/-- R114, R116: which cause adding the padding reports. -/
theorem reportedCause_padAddOf (pad : Padding) (data : List Byte) :
    reportedCause (padAddOf pad data) = [lengthCause false pad.bits data].find? (·.1) := by
  cases pad with
  | none => by_cases h : data.length % 16 = 0 <;> simp [padAddOf, lengthCause, Padding.bits, h,
      reportedCause]
  | pkcs7 => rfl
  | zero => rfl

/-- R125: `ENCRYPT` reports the first cause that applies. -/
theorem reportedCause_encryptOf (rom : Rom) (mode pad : BitVec 2) (ops : MsgOperands) :
    reportedCause (encryptOf rom mode pad ops) =
      (validateCauses mode pad ops ++ [lengthCause false pad ops.data]).find? (·.1) := by
  rw [List.find?_append, ← reportedCause_validate]
  refine reportedCause_bind _ _ _ fun sel hsel => ?_
  obtain ⟨-, -, rfl⟩ := validate_eq_ok.1 hsel
  rw [← reportedCause_padAddOf]
  exact reportedCause_bind_ok (padAddOf sel.pad ops.data) _

/-- R111, R113, R115: removing a padding fails for PKCS7 only. -/
theorem reportedCause_padRemoveOf (pad : Padding) (b : List Byte) :
    reportedCause (padRemoveOf pad b) = none ∨
      reportedCause (padRemoveOf pad b) = some (true, .invalidPadding) ∧ pad.bits = 1#2 := by
  cases pad with
  | none => exact .inl rfl
  | pkcs7 =>
    rw [padRemoveOf]
    cases pkcs7Remove b with
    | none => exact .inr ⟨rfl, rfl⟩
    | some m => exact .inl rfl
  | zero => exact .inl rfl

/-- R126: `DECRYPT` reports the first cause that applies, and after them all a bad padding. -/
theorem reportedCause_decryptOf (rom : Rom) (mode pad : BitVec 2) (ops : MsgOperands) :
    ∃ x, (x = none ∨ x = some (true, .invalidPadding) ∧ pad = 1#2) ∧
      reportedCause (decryptOf rom mode pad ops) =
        ((validateCauses mode pad ops ++ [lengthCause true pad ops.data]).find? (·.1)).or x := by
  rw [List.find?_append, ← reportedCause_validate, decryptOf]
  cases hv : validate mode pad ops with
  | error e => exact ⟨none, .inl rfl, rfl⟩
  | ok sel =>
    obtain ⟨-, -, rfl⟩ := validate_eq_ok.1 hv
    refine ⟨_, reportedCause_padRemoveOf sel.pad
      (decChainOf rom (keyScheduleOf rom sel.key) sel.chain ops.data), ?_⟩
    by_cases hlen : ops.data.length % 16 = 0 <;> simp [lengthCause, hlen, reportedCause]

/-- R19, R148: the `ERR` of an `ENCRYPT` or `DECRYPT`. -/
theorem messageResponse_err (x : Except ErrorKind (List Byte)) :
    (messageResponse x).err = some ((reportedCause x).elim .ok fun c => .error c.2) := by
  cases x <;> rfl

/-- R54: the causes in terms of the descriptor, of which CBC without `IVP` takes no IV. -/
theorem validateCauses_operands (mode pad : BitVec 2) (ivp : Bool) (key data : List Byte)
    (iv : Option (List Byte)) :
    validateCauses mode pad ⟨key, if mode = 1#2 ∧ ivp = true then iv else none, data⟩ = [
      (key.length != 16, .invalidKeyLength),
      (mode == 1#2 && (!ivp || (iv.getD []).length != 16), .invalidIVLength),
      (mode == 2#2 || mode == 3#2, .unsupportedMode),
      (pad == 3#2, .unsupportedPadding)] := by
  by_cases hmode : mode = 1#2
  · cases ivp <;> simp [validateCauses, hmode]
  · simp [validateCauses, hmode]

/-- R17, R25: the operands of an `ENCRYPT` or `DECRYPT` word that is ready are latched. -/
theorem Ready.runsMessage {i : Instr} {d : Descriptor} {s : State} {mode : BitVec 2} {ivp : Bool}
    {key data : List Byte} (h : Ready i d s) (hf : fieldsRead i = msgFields mode ivp)
    (hkey : d.key = some key) (hdata : d.data = some data) :
    RunsMessage s key d.iv data ∧ (mode = 1#2 → ivp = true → d.iv.isSome = true) := by
  obtain ⟨hp, hl, ha⟩ := h
  rw [hf, firstAbsent_eq_none] at ha
  exact ⟨⟨hp, d, hl, hkey, rfl, hdata⟩,
    fun hm hi => ha .iv (mem_msgFields.2 (.inr (.inr ⟨rfl, hm, hi⟩)))⟩

/-- Settles O42: the response's error is the first cause found, and after all of them, in `DECRYPT`
with PKCS7, that of the padding. -/
theorem firstCauseIsReported : Obligations.FirstCauseIsReported := by
  intro i d s t mode pad ivp dec key data hk hready hkey hdata hexec causes
  have hcauses : causes = validateCauses mode pad
      ⟨key, if mode = 1#2 ∧ ivp = true then d.iv else none, data⟩ ++ [lengthCause dec pad data] := by
    rw [validateCauses_operands]
    rfl
  have hf : fieldsRead i = msgFields mode ivp := by
    rw [fieldsRead_kind, hk]
    cases dec <;> rfl
  obtain ⟨hrun, hiv⟩ := hready.runsMessage hf hkey hdata
  clear_value causes
  cases dec with
  | false =>
    rw [exec_encrypt_of_runsMessage hk hrun hiv] at hexec
    cases hexec
    rw [finish_resp, messageResponse_err, reportedCause_encryptOf, ← hcauses]
    cases causes.find? (·.1) with
    | none => exact .inl rfl
    | some c => rfl
  | true =>
    rw [exec_decrypt_of_runsMessage hk hrun hiv] at hexec
    cases hexec
    obtain ⟨x, hx, hreport⟩ := reportedCause_decryptOf s.rom mode pad
      ⟨key, if mode = 1#2 ∧ ivp = true then d.iv else none, data⟩
    rw [finish_resp, messageResponse_err, hreport, ← hcauses]
    cases causes.find? (·.1) with
    | none =>
      obtain rfl | ⟨rfl, hpad⟩ := hx
      · exact .inl rfl
      · exact .inr ⟨rfl, rfl, hpad⟩
    | some c => rfl

/-! ### The length of `OUT` (R110 to R115, R125, R126) -/

/-- R19: a message word that ends with an `OUT` computed it from its `DATA`, and `OLEN` is its
length. -/
theorem messageResponse_of_out {mode : BitVec 2} {ivp : Bool} {d : Descriptor} {r : Response}
    {out : List Byte} {f : MsgOperands → Except ErrorKind (List Byte)}
    (h : (msgOperands mode ivp d).toOption.map (fun ops => messageResponse (f ops)) = some r)
    (hout : r.out = some out) :
    r.olen = some out.length ∧ ∃ ops, d.data = some ops.data ∧ f ops = .ok out := by
  simp only [Option.map_eq_some_iff, toOption_eq_some] at h
  obtain ⟨ops, ho, rfl⟩ := h
  have hf := messageResponse_out hout
  exact ⟨by rw [hf]; rfl, ops, msgOperands_data ho, hf⟩

/-- R26: the response of a command that ends is that of the message latched. -/
theorem RunsMessage.responseOf_eq {i : Instr} {s t : State} {key data : List Byte}
    {iv : Option (List Byte)} (h : RunsMessage s key iv data) (he : exec i s = .next t) :
    ∃ d, d.data = some data ∧ responseOf s.rom i d = some t.resp := by
  obtain ⟨-, d, hl, -, -, hdata⟩ := h
  obtain ⟨d', r, -, hl', hr, -, rfl⟩ := exec_next he
  cases hl.symm.trans hl'
  exact ⟨d, hdata, hr⟩

/-- R53: paddings that differ have different `PAD` fields. -/
theorem Padding.bits_injective : Function.Injective Padding.bits := by
  intro pad pad' h
  cases pad <;> cases pad' <;> cases h <;> rfl

/-- R125: a ciphertext is the mode controller's output on the padded plaintext. -/
theorem encryptOf_eq_ok {rom : Rom} {mode : BitVec 2} {pad : Padding} {ops : MsgOperands}
    {c : List Byte} (h : encryptOf rom mode pad.bits ops = .ok c) :
    ∃ p ks chain, padAddOf pad ops.data = .ok p ∧ c = encChainOf rom ks chain p := by
  unfold encryptOf at h
  cases hv : validate mode pad.bits ops with
  | error e => rw [hv] at h; cases h
  | ok sel =>
    obtain ⟨-, -, hpad⟩ := validate_eq_ok.1 hv
    obtain rfl := Padding.bits_injective hpad
    cases hp : padAddOf sel.pad ops.data with
    | error e => rw [hv, except_ok_bind, hp] at h; cases h
    | ok p =>
      rw [hv, except_ok_bind, hp] at h
      cases h
      exact ⟨p, _, _, rfl, rfl⟩

/-- R126: a plaintext is what the padding leaves of the mode controller's output on whole blocks. -/
theorem decryptOf_eq_ok {rom : Rom} {mode : BitVec 2} {pad : Padding} {ops : MsgOperands}
    {m : List Byte} (h : decryptOf rom mode pad.bits ops = .ok m) :
    ∃ ks chain, ops.data.length % 16 = 0 ∧
      padRemoveOf pad (decChainOf rom ks chain ops.data) = .ok m := by
  unfold decryptOf at h
  cases hv : validate mode pad.bits ops with
  | error e => rw [hv] at h; cases h
  | ok sel =>
    obtain ⟨-, -, hpad⟩ := validate_eq_ok.1 hv
    obtain rfl := Padding.bits_injective hpad
    rw [hv, except_ok_bind] at h
    split at h
    · exact ⟨_, _, ‹_›, h⟩
    · cases h

/-- R110, R112, R114: the length to which `n` bytes are padded. -/
def Padding.paddedLength (n : Nat) : Padding → Nat
  | .none => n
  | .pkcs7 => n + 16 - n % 16
  | .zero => (n + 15) / 16 * 16

/-- R111, R113, R115: which lengths `m` can be left of `n` bytes. -/
def Padding.leavesLength (n m : Nat) : Padding → Prop
  | .none => m = n
  | .pkcs7 => m < n ∧ n ≤ m + 16
  | .zero => m ≤ n

/-- R110, R112, R114: the length of the padded plaintext. -/
theorem padAddOf_length {pad : Padding} {b p : List Byte} (h : padAddOf pad b = .ok p) :
    p.length = pad.paddedLength b.length := by
  cases pad with
  | none =>
    obtain ⟨-, rfl⟩ := padAddOf_none_eq_ok.1 h
    rfl
  | pkcs7 =>
    cases h
    simp only [pkcs7Add, pkcs7PadLen, List.length_append, List.length_replicate,
      Padding.paddedLength]
    omega
  | zero =>
    cases h
    obtain ⟨n, hn, hfill, hadd⟩ := zeroAdd_eq_append b
    rw [hadd, List.length_append, List.length_replicate, Padding.paddedLength]
    omega

/-- R111, R113, R115: the length that removing the padding leaves. -/
theorem padRemoveOf_length {pad : Padding} {b m : List Byte} (h : padRemoveOf pad b = .ok m) :
    pad.leavesLength b.length m.length := by
  cases pad with
  | none => cases h; rfl
  | pkcs7 =>
    simp only [padRemoveOf] at h
    split at h <;> cases h
    obtain ⟨n, hpos, hle, rfl⟩ := pkcs7Remove_eq_some_iff.1 ‹_›
    rw [List.length_append, List.length_replicate, Padding.leavesLength]
    omega
  | zero => exact padRemoveOf_length_le h

/-- Settles O48: the mode controllers keep the length, and the padding functions change it. -/
theorem outputLengths : Obligations.OutputLengths := by
  intro s t key iv data out cbc pad ivp h hout
  constructor
  · intro he
    obtain ⟨d, hdata, hr⟩ := h.responseOf_eq he
    rw [responseOf, kind_encInstr_bits] at hr
    obtain ⟨holen, ops, hops, hc⟩ := messageResponse_of_out hr hout
    obtain rfl := Option.some.inj (hdata.symm.trans hops)
    obtain ⟨p, ks, chain, hp, rfl⟩ := encryptOf_eq_ok hc
    refine ⟨holen, ?_⟩
    rw [encChainOf_length_of_mod _ _ _ (padAddOf_length_mod hp)]
    exact padAddOf_length hp
  · intro he
    obtain ⟨d, hdata, hr⟩ := h.responseOf_eq he
    rw [responseOf, kind_decInstr_bits] at hr
    obtain ⟨holen, ops, hops, hm⟩ := messageResponse_of_out hr hout
    obtain rfl := Option.some.inj (hdata.symm.trans hops)
    obtain ⟨ks, chain, hlen, hm⟩ := decryptOf_eq_ok hm
    refine ⟨holen, ?_⟩
    have hkept : (decChainOf s.rom ks chain ops.data).length = ops.data.length := by
      rw [decChainOf_length]
      omega
    rw [← hkept]
    exact padRemoveOf_length hm

end Sys2Proof.Machine

/-! SUPPORT. 60_exceptions.md: what an error leaves (R148, R150), in which error each cause ends a
command (R141 to R146), the engine outside BUSY (R160), and engines side by side (R158). -/

namespace Sys2Proof.Machine

/-! ### What an error leaves (R148, R150) -/

/-- R148: the one response with an error. -/
theorem CommandResponse.eq_failed {r : Response} {e : ErrorKind} (h : CommandResponse r)
    (he : r.err = some (.error e)) : r = .failed e := by
  cases h with
  | schedule ks => cases he
  | ofBlock b => cases he
  | message b => cases he
  | failed e' => cases he; rfl

/-- Settles O49: the command is `finish` of a response, and only `failed` has an error. -/
theorem errorLeavesNothing : Obligations.ErrorLeavesNothing := by
  intro i s t e h he
  obtain ⟨d, r, -, -, -, hr, rfl⟩ := exec_next h
  obtain rfl := hr.eq_failed he
  rfl

/-! ### The errors of `VALIDATE` (R141, R142, R145, R146) -/

/-- R120 step 1: with a 16-byte key, `VALIDATE` chooses the mode and then the padding. -/
theorem validate_toList (mode pad : BitVec 2) (k : Block) (iv : Option (List Byte))
    (data : List Byte) : validate mode pad ⟨k.toList, iv, data⟩ =
      selectChain mode iv >>= fun chain =>
        selectPadding pad >>= fun pad => .ok ⟨k, chain, pad⟩ := by
  simp only [validate, asBlock_toList]

/-- R141: the key's length is looked at first. -/
theorem validate_badKey {mode pad : BitVec 2} {ops : MsgOperands} (h : ops.key.length ≠ 16) :
    validate mode pad ops = .error .invalidKeyLength := by
  simp only [validate, asBlock_eq_none.2 h]

/-- R142: CBC without a 16-byte IV is the second error. -/
theorem validate_badIv {pad : BitVec 2} {k : Block} {iv : Option (List Byte)} {data : List Byte}
    (h : iv.bind asBlock = none) :
    validate 1#2 pad ⟨k.toList, iv, data⟩ = .error .invalidIVLength := by
  have hchain : selectChain 1#2 iv = .error .invalidIVLength := by simp [selectChain, h]
  rw [validate_toList, hchain, except_error_bind]

/-- R145: a reserved `MODE` is the third, whatever the IV. -/
theorem validate_rsvMode {mode pad : BitVec 2} {k : Block} {iv : Option (List Byte)}
    {data : List Byte} (h : mode = 2#2 ∨ mode = 3#2) :
    validate mode pad ⟨k.toList, iv, data⟩ = .error .unsupportedMode := by
  have hchain : selectChain mode iv = .error .unsupportedMode := by obtain rfl | rfl := h <;> rfl
  rw [validate_toList, hchain, except_error_bind]

/-- R146: `PAD` 3 is the fourth, once a mode is chosen. -/
theorem validate_rsvPad {mode : BitVec 2} {k : Block} {iv : Option (List Byte)} {data : List Byte}
    {chain : Chain} (h : selectChain mode iv = .ok chain) :
    validate mode 3#2 ⟨k.toList, iv, data⟩ = .error .unsupportedPadding := by
  rw [validate_toList, h]
  rfl

/-- R120: an error of `VALIDATE` ends an `ENCRYPT` and a `DECRYPT` word alike. -/
theorem RunsMessage.exec_of_validate_error {i : Instr} {s : State} {key data : List Byte}
    {iv : Option (List Byte)} {mode pad : BitVec 2} {ivp : Bool} {e : ErrorKind}
    (h : RunsMessage s key iv data)
    (hk : kind i = .encrypt mode pad ivp ∨ kind i = .decrypt mode pad ivp)
    (hiv : mode = 1#2 → ivp = true → iv.isSome = true)
    (hv : validate mode pad ⟨key, if mode = 1#2 ∧ ivp = true then iv else none, data⟩ = .error e) :
    exec i s = .next (finish (.failed e) s) := by
  obtain hk | hk := hk
  · rw [exec_encrypt_of_runsMessage hk h hiv, encryptOf, hv]
    rfl
  · rw [exec_decrypt_of_runsMessage hk h hiv, decryptOf, hv]
    rfl

/-- R17, R55: a ready `ENCRYPT` or `DECRYPT` word runs a message; its IV is there when read. -/
theorem Ready.exists_runsMessage {i : Instr} {d : Descriptor} {s : State} {mode pad : BitVec 2}
    {ivp : Bool} {key : List Byte} (h : Ready i d s)
    (hk : kind i = .encrypt mode pad ivp ∨ kind i = .decrypt mode pad ivp)
    (hkey : d.key = some key) :
    ∃ data, d.data = some data ∧ RunsMessage s key d.iv data ∧
      (mode = 1#2 → ivp = true → d.iv.isSome = true) := by
  have hf : fieldsRead i = msgFields mode ivp := by
    rw [fieldsRead_kind]
    obtain hk | hk := hk <;> rw [hk]
  have ⟨_, _, hsupplied⟩ := h
  rw [hf] at hsupplied
  obtain ⟨-, data, -, hdata, -⟩ := msgOperands_of_supplied hsupplied
  exact ⟨data, hdata, h.runsMessage hf hkey hdata⟩

/-- Settles O34: `KEYSCHED` and `VALIDATE` both look at the key's length before anything else. -/
theorem keyLengthIsCheckedFirst : Obligations.KeyLengthIsCheckedFirst := by
  intro i d s key hready hi hkey hlen
  obtain rfl | ⟨mode, pad, ivp, hk⟩ := hi
  · obtain ⟨hp, hl, -⟩ := hready
    exact (keyschedExpandsTheKey s key ⟨hp, d, hl, hkey⟩).2 hlen
  · obtain ⟨data, -, hrun, hiv⟩ := hready.exists_runsMessage hk hkey
    exact hrun.exec_of_validate_error hk hiv (validate_badKey hlen)

/-- R142: outside CBC no cause of `InvalidIVLength` applies. -/
theorem exec_ne_invalidIVLength {i : Instr} {d : Descriptor} {s : State} {mode pad : BitVec 2}
    {ivp : Bool} {key : List Byte} (hready : Ready i d s)
    (hk : kind i = .encrypt mode pad ivp ∨ kind i = .decrypt mode pad ivp)
    (hkey : d.key = some key) (hmode : mode ≠ 1#2) :
    exec i s ≠ .next (finish (.failed .invalidIVLength) s) := by
  intro hexec
  obtain ⟨data, hdata, -, -⟩ := hready.exists_runsMessage hk hkey
  obtain ⟨dec, hk⟩ : ∃ dec : Bool,
      kind i = if dec then .decrypt mode pad ivp else .encrypt mode pad ivp :=
    hk.elim (⟨false, ·⟩) (⟨true, ·⟩)
  have hfirst := firstCauseIsReported i d s _ mode pad ivp dec key data hk hready hkey hdata hexec
  simp only [finish_resp] at hfirst
  split at hfirst
  · rename_i applies _ hfind
    cases hfirst
    have happlies : applies = true := List.find?_some hfind
    have hcause : applies = (mode == 1#2 && (!ivp || (d.iv.getD []).length != 16)) := by
      simpa using List.mem_of_find?_eq_some hfind
    simp [happlies, hmode] at hcause
  · obtain hok | ⟨hpadding, -⟩ := hfirst
    · cases hok
    · cases hpadding

/-- R54: CBC takes no 16-byte IV when `IVP` is 0 or the IV field has another length. -/
theorem bind_asBlock_eq_none {ivp : Bool} {iv : Option (List Byte)}
    (h : ivp = false ∨ ∃ v, iv = some v ∧ v.length ≠ 16) :
    (if 1#2 = 1#2 ∧ ivp = true then iv else none).bind asBlock = none := by
  obtain rfl | ⟨v, rfl, hlen⟩ := h
  · rfl
  · cases ivp with
    | false => rfl
    | true => exact asBlock_eq_none.2 hlen

/-- Settles O35: in CBC by `VALIDATE`, outside it because the cause cannot be found. -/
theorem cbcNeedsA16ByteIv : Obligations.CbcNeedsA16ByteIv := by
  intro i d s mode pad ivp k hready hk hkey
  refine ⟨?_, exec_ne_invalidIVLength hready hk hkey⟩
  rintro rfl hbad
  obtain ⟨data, -, hrun, hiv⟩ := hready.exists_runsMessage hk hkey
  exact hrun.exec_of_validate_error hk hiv (validate_badIv (bind_asBlock_eq_none hbad))

/-- Settles O38: a reserved `MODE` reads no IV, and `VALIDATE` ends at it. -/
theorem reservedModeIsUnsupported : Obligations.ReservedModeIsUnsupported := by
  intro s k iv data mode pad ivp hrun hmode
  have hiv : mode = 1#2 → ivp = true → iv.isSome = true := by
    rintro rfl
    simp at hmode
  exact ⟨hrun.exec_of_validate_error (.inl rfl) hiv (validate_rsvMode hmode),
    hrun.exec_of_validate_error (.inr rfl) hiv (validate_rsvMode hmode)⟩

/-- Settles O39: the mode is chosen in both cases, so `VALIDATE` comes to the padding. -/
theorem reservedPaddingIsUnsupported : Obligations.ReservedPaddingIsUnsupported := by
  intro s k iv data mode ivp hrun hgood
  obtain ⟨hiv, chain, hchain⟩ : (mode = 1#2 → ivp = true → iv.isSome = true) ∧ ∃ chain,
      selectChain mode (if mode = 1#2 ∧ ivp = true then iv else none) = .ok chain := by
    obtain rfl | ⟨rfl, rfl, v, rfl, hlen⟩ := hgood
    · exact ⟨nofun, .ecb, rfl⟩
    · obtain ⟨b, hb⟩ := Option.ne_none_iff_exists'.1 (mt asBlock_eq_none.1 (not_not.2 hlen))
      exact ⟨fun _ _ => rfl, .cbc b, by simp [selectChain, hb]⟩
  exact ⟨hrun.exec_of_validate_error (.inl rfl) hiv (validate_rsvPad hchain),
    hrun.exec_of_validate_error (.inr rfl) hiv (validate_rsvPad hchain)⟩

/-! ### The errors after `VALIDATE` (R143, R144) -/

/-- R125 after `VALIDATE`: an error of adding the padding ends an `ENC` word. -/
theorem exec_encInstr_error {s : State} {k : Block} {iv : Option (List Byte)} {data : List Byte}
    {cbc ivp : Bool} {chain : Chain} {pad : Padding} {e : ErrorKind}
    (hc : SelectsChain cbc ivp iv chain) (h : RunsMessage s k.toList iv data)
    (he : padAddOf pad data = .error e) :
    exec (encInstr cbc pad ivp) s = .next (finish (.failed e) s) := by
  rw [exec_encrypt_of_runsMessage (kind_encInstr_bits cbc pad ivp) h hc.iv_isSome, encryptOf,
    hc.validate, except_ok_bind, he]
  rfl

/-- R126 after `VALIDATE`: an error of the length, or of removing the padding, ends a `DEC` word. -/
theorem exec_decInstr_error {s : State} {k : Block} {iv : Option (List Byte)} {data : List Byte}
    {cbc ivp : Bool} {chain : Chain} {pad : Padding} {e : ErrorKind}
    (hc : SelectsChain cbc ivp iv chain) (h : RunsMessage s k.toList iv data)
    (he : (if data.length % 16 = 0 then
        padRemoveOf pad (decChainOf s.rom (keyScheduleOf s.rom k) chain data)
      else .error .invalidInputLength) = .error e) :
    exec (decInstr cbc pad ivp) s = .next (finish (.failed e) s) := by
  rw [exec_decrypt_of_runsMessage (kind_decInstr_bits cbc pad ivp) h hc.iv_isSome, decryptOf,
    hc.validate, except_ok_bind, he]
  rfl

/-- Settles O36: after `VALIDATE`, `DECRYPT` looks at the length, and so does `NONE.ADD`. -/
theorem inputLengthIsChecked : Obligations.InputLengthIsChecked := by
  intro s k iv data cbc pad ivp hrun hivp hlen
  have hchain := selectsChain_of_block iv hivp
  exact ⟨exec_decInstr_error hchain hrun (if_neg hlen),
    exec_encInstr_error hchain hrun (if_neg hlen)⟩

/-- R111: `PKCS7.REMOVE` fails on what is not some bytes followed by `n` bytes `n`, 1 to 16. -/
theorem padRemoveOf_pkcs7_error {b : List Byte}
    (h : ∀ (m : List Byte) (n : Nat), 1 ≤ n → n ≤ 16 →
      b ≠ m ++ List.replicate n (BitVec.ofNat 8 n)) :
    padRemoveOf .pkcs7 b = .error .invalidPadding := by
  rw [padRemoveOf]
  cases hm : pkcs7Remove b with
  | none => rfl
  | some m =>
    obtain ⟨n, hpos, hle, hb⟩ := pkcs7Remove_eq_some_iff.1 hm
    exact absurd hb (h m n hpos hle)

/-- Settles O37: everything before it good, `DECRYPT` ends in the error of `PKCS7.REMOVE`. -/
theorem badPaddingIsReported : Obligations.BadPaddingIsReported := by
  intro s k iv data cbc ivp hrun hivp hlen hbad
  refine exec_decInstr_error (selectsChain_of_block iv hivp) hrun ?_
  rw [if_pos hlen, padRemoveOf_pkcs7_error hbad]

/-! ### The engine outside BUSY (R160), and engines side by side (R158) -/

/-- Settles O7: with no host action, or a wait, the step is the engine's turn. -/
theorem engineWaitsForIssue : Obligations.EngineWaitsForIssue := by
  intro s hp
  refine ⟨fun hpend => ?_, fun rest hpend => ?_⟩
  · rw [step_idle hpend, engineTurn_notBusy hp]
  · rw [step_wait hpend]
    exact engineTurn_notBusy hp

/-- R158: what one engine answers is the same after another one's step. -/
theorem systemStep_set {sys : List State} {m n : Nat} {t u : State} (hn : n < sys.length)
    (hmn : m ≠ n) (h : step sys[n] = .next u) :
    systemStep (sys.set m t) ⟨n, by simpa using hn⟩ = .next ((sys.set m t).set n u) :=
  systemStep_next.2 ⟨u, by simpa [hmn] using h, rfl⟩

/-- Settles O60: a step replaces its own entry of the list, and two such replacements commute. -/
theorem instancesAreIndependent : Obligations.InstancesAreIndependent := by
  refine ⟨fun sys sys1 m hm h => ?_, fun sys sys1 sys2 m n hm hn hmn h1 h2 => ?_⟩
  · obtain ⟨t, -, rfl⟩ := systemStep_next.1 h
    exact ⟨List.length_set, fun k hk => List.getElem?_set_ne hk.symm⟩
  · obtain ⟨t, ht, rfl⟩ := systemStep_next.1 h1
    obtain ⟨u, hu, rfl⟩ := systemStep_next.1 h2
    refine ⟨by simpa using hn, by simpa using hm, _, systemStep_set hn hmn hu, ?_⟩
    rw [List.set_comm t u hmn]
    exact systemStep_set hm hmn.symm ht

end Sys2Proof.Machine

/-! SUPPORT. 70_reset_and_hazards.md: the reset in any phase (R170), and the read-only tables and the
capacities along a step (R178). -/

namespace Sys2Proof.Machine

/-- Settles O10: the reset of the engine, after the host's turn is taken, is that state. -/
theorem resetDiscardsCommand : Obligations.ResetDiscardsCommand := by
  intro s rest h
  exact step_reset h

/-- R26, R178: the engine's turn at most completes a command, which writes neither. -/
theorem engineTurn_rom_caps {s t : State} (h : engineTurn s = .next t) :
    t.rom = s.rom ∧ t.caps = s.caps := by
  obtain ⟨-, rfl⟩ | ⟨-, d, -, he⟩ := engineTurn_next h
  · exact ⟨rfl, rfl⟩
  · obtain ⟨_, r, -, -, -, -, rfl⟩ := exec_next he
    exact ⟨finish_rom r s, finish_caps r s⟩

/-- Settles O59, by what the host did in the step. -/
theorem tablesAreNeverWritten : Obligations.TablesAreNeverWritten := by
  intro s t h
  obtain ⟨-, ht⟩ | ⟨a, rest, hpend, ha⟩ := step_next h
  · obtain ⟨hrom, hcaps⟩ := engineTurn_rom_caps ht
    exact ⟨hcaps, fun _ => hrom⟩
  · cases a with
    | issue d =>
      obtain ⟨-, -, -, rfl⟩ := issue_next ha
      simp
    | read f =>
      obtain ⟨v, rfl⟩ := hostRead_next ha
      simp
    | reset =>
      subst ha
      exact ⟨by simp, fun hne => absurd hpend (hne rest)⟩
    | wait =>
      obtain ⟨hrom, hcaps⟩ := engineTurn_rom_caps ha
      exact ⟨hcaps, fun _ => hrom⟩

end Sys2Proof.Machine
